-- ==== Sys2Proof/Word.lean ====
section
/-! DEFINITION. The word and byte types of LiquidCPU CORE (spec/00_scope.md R7, R11, R12).
Every register and every operand word is 64 bits, memory is bytes, and arithmetic that writes state is modulo 2^64. -/

namespace Sys2Proof

/-- `u64` of R11: a register, an address, an operand data word. `+` and `-` on it are the `+64` and `-64` of R12. -/
abbrev Word := BitVec 64

/-- One byte of memory (R40). -/
abbrev Byte := BitVec 8

end Sys2Proof
end

