-- ==== Sys2Proof/Syntax.lean ====
section
/-! DEFINITION. The instructions of LiquidCPU CORE as decoded values: one constructor per row of
spec/opcode_table.json (30_encoding.md R67), with the operand forms of 30_encoding.md R70. -/

namespace Sys2Proof

/-- One operand after mode selection (R70). A form keeps its whole 64-bit data word: a register index of 8 or more is a
legal term here, because the machine checks it when it resolves the operand, in the order of R163. -/
inductive Operand where
  /-- Mode Reg: the general register with this index (R75). -/
  | reg (index : Word)
  /-- Mode Const: the literal data word (R74). -/
  | const (value : Word)
  /-- Mode MemAbs: 8 bytes at the literal data word (R73). -/
  | memAbs (addr : Word)
  /-- Mode MemReg: 8 bytes at the address held in the general register with this index (R72). -/
  | memReg (index : Word)
  /-- Mode None: no mode bit selected; resolving it is a fault whatever the data word (R76). -/
  | noMode
deriving DecidableEq, Repr

/-- The kind an operand is resolved with (R69, R71): inc and dec, which read and write, use `write`. -/
inductive Access where
  | read
  | write
deriving DecidableEq, Repr

/-- The ten instructions (R67), each with the operands its row of R69 uses and no other field (R79). -/
inductive Instr where
  | nop
  | mov (dst src : Operand)
  | hlt
  | jmp (dst : Operand)
  | inc (dst : Operand)
  | dec (dst : Operand)
  | push (src : Operand)
  | pop (dst : Operand)
  | call (dst : Operand)
  | ret
deriving DecidableEq, Repr

end Sys2Proof
end

