-- ==== Sys2Proof/WellFormed.lean ====
section
/-! DEFINITION. Well-formed instructions: those the spec's own assembly syntax can write (30_encoding.md R84, R86) and
that do not name a constant as a written destination (R74).
Every term of `Instr` has an encoding and a meaning; an ill-formed one raises, when it runs, the fault its rule names.
So the machine never asks for well-formedness: it separates the faults a program's text decides from the one, an address
out of range, that only its run decides. -/

namespace Sys2Proof

/-- Some mode is selected (R76). -/
def Operand.hasMode : Operand → Bool
  | .noMode => false
  | _ => true

/-- A register index, if the form has one, is 0 to 7 (R84: `rN` with N in 0..7). -/
def Operand.indexInRange : Operand → Bool
  | .reg w => w.toNat < 8
  | .memReg w => w.toNat < 8
  | _ => true

/-- A constant is not resolved for write (R74). -/
def Operand.notWrittenConst (k : Access) : Operand → Bool
  | .const _ => k == .read
  | _ => true

/-- The three checks on one operand resolved with kind `k`. -/
def Operand.wellFormed (k : Access) (o : Operand) : Bool :=
  o.hasMode && o.indexInRange && o.notWrittenConst k

/-- The operands an instruction uses, each with the kind it is resolved with, in the order R78 resolves them (R69). -/
def Instr.uses : Instr → List (Operand × Access)
  | .nop => []
  | .mov dst src => [(src, .read), (dst, .write)]
  | .hlt => []
  | .jmp dst => [(dst, .read)]
  | .inc dst => [(dst, .write)]
  | .dec dst => [(dst, .write)]
  | .push src => [(src, .read)]
  | .pop dst => [(dst, .write)]
  | .call dst => [(dst, .read)]
  | .ret => []

/-- Every operand the instruction uses is well formed for its kind. -/
def Instr.wellFormed (i : Instr) : Bool := i.uses.all fun u => u.1.wellFormed u.2

end Sys2Proof
end

