-- ==== Sys2Proof/Decode.lean ====
section
/-! DEFINITION. The record of LQ-ENC-1 (spec/30_encoding.md R60 to R70, R80): byte order, fields, the decoder, total on
any list of bytes and rejecting by name, and after it the encoder written from the same tables. -/

namespace Sys2Proof

/-- Bytes of one record (R60). -/
def recordSize : Nat := 19

/-! ### Byte order (D1: little-endian, lowest address first) -/

/-- The unsigned number a byte list stands for, least significant byte first: the sum of R42 and R80. -/
def leNat : List Byte → Nat
  | [] => 0
  | b :: bs => b.toNat + 256 * leNat bs

/-- The low `8n` bits of `v` as `n` bytes, least significant first (R43). -/
def leBytes : Nat → Nat → List Byte
  | 0, _ => []
  | n + 1, v => BitVec.ofNat 8 v :: leBytes n (v / 256)

/-- A 64-bit data word read from bytes; shorter lists are zero-extended (R42). -/
def leWord (bs : List Byte) : Word := BitVec.ofNat 64 (leNat bs)

/-! ### The record -/

/-- The fields of one record as `Decode` of R80 returns them. -/
structure Record where
  opcode : Byte
  flags : Byte
  sizeSrc : BitVec 4
  sizeDst : BitVec 4
  op1 : Word
  op2 : Word
deriving DecidableEq, Repr

/-- The fields at their byte offsets (R61, R80), and the bytes after the record; none where fewer than 19 remain. -/
def Record.ofBytes (bytes : List Byte) : Option (Record × List Byte) :=
  if bytes.length < recordSize then none
  else
    match bytes with
    | b0 :: b1 :: b2 :: rest =>
      some
        ({ opcode := b0
           flags := b1
           sizeSrc := b2.extractLsb' 0 4
           sizeDst := b2.extractLsb' 4 4
           op1 := leWord (rest.take 8)
           op2 := leWord ((rest.drop 8).take 8) },
         rest.drop 16)
    | _ => none

/-- The 19 bytes of a record (R61). -/
def Record.toBytes (r : Record) : List Byte :=
  r.opcode :: r.flags :: (r.sizeDst ++ r.sizeSrc) :: (leBytes 8 r.op1.toNat ++ leBytes 8 r.op2.toNat)

/-- Mode selection by priority: memory, then constant, then register (R70). -/
def selectMode (m c r : Bool) (w : Word) : Operand :=
  if m then (if r then .memReg w else .memAbs w)
  else if c then .const w
  else if r then .reg w
  else .noMode

/-- The source operand: `SM`, `SC`, `SR` are flag bits 0, 2, 4 and the word is `op2` (R63, R66). -/
def Record.src (r : Record) : Operand :=
  selectMode (r.flags.getLsbD 0) (r.flags.getLsbD 2) (r.flags.getLsbD 4) r.op2

/-- The destination operand: `DM`, `DC`, `DR` are flag bits 1, 3, 5 and the word is `op1` (R63, R66). -/
def Record.dst (r : Record) : Operand :=
  selectMode (r.flags.getLsbD 1) (r.flags.getLsbD 3) (r.flags.getLsbD 5) r.op1

/-- Flag bits 7:6, which must be zero (R64). -/
def Record.reservedFlags (r : Record) : BitVec 2 := r.flags.extractLsb' 6 2

/-! ### The decoder -/

/-- Why bytes are no instruction. The machine turns each into the fault its rule names. -/
inductive DecodeError where
  /-- Fewer than 19 bytes (R80). -/
  | truncated
  /-- An opcode of 0x0A or above (R68). -/
  | invalidOpcode (opcode : Byte)
  /-- Flag bits 7:6 not zero under a defined opcode (R64). -/
  | reservedFlagBits
deriving DecidableEq, Repr

/-- The opcode map (R67) with the operands of R69; none for an illegal opcode (R68). -/
def Record.instr? (r : Record) : Option Instr :=
  match r.opcode.toNat with
  | 0x00 => some .nop
  | 0x01 => some (.mov r.dst r.src)
  | 0x02 => some .hlt
  | 0x03 => some (.jmp r.dst)
  | 0x04 => some (.inc r.dst)
  | 0x05 => some (.dec r.dst)
  | 0x06 => some (.push r.src)
  | 0x07 => some (.pop r.dst)
  | 0x08 => some (.call r.dst)
  | 0x09 => some .ret
  | _ => none

/-- The opcode is checked before the reserved flag bits (R81, R162). -/
def decodeRecord (r : Record) : Except DecodeError Instr :=
  match r.instr? with
  | none => .error (.invalidOpcode r.opcode)
  | some i => if r.reservedFlags = 0 then .ok i else .error .reservedFlagBits

/-- The instruction at the head of a byte list and the bytes after its record. -/
def decode (bytes : List Byte) : Except DecodeError (Instr × List Byte) :=
  match Record.ofBytes bytes with
  | none => .error .truncated
  | some (r, rest) =>
    match decodeRecord r with
    | .error e => .error e
    | .ok i => .ok (i, rest)

/-! ### The encoder (canonical records, R85) -/

/-- The opcode number of an instruction (R67). -/
def Instr.opcode : Instr → Byte
  | .nop => 0x00
  | .mov _ _ => 0x01
  | .hlt => 0x02
  | .jmp _ => 0x03
  | .inc _ => 0x04
  | .dec _ => 0x05
  | .push _ => 0x06
  | .pop _ => 0x07
  | .call _ => 0x08
  | .ret => 0x09

/-- The flag bits R84 gives a form, in the positions of the source role: `SM` 0x01, `SC` 0x04, `SR` 0x10 (R63). -/
def Operand.srcFlags : Operand → Byte
  | .reg _ => 0x10
  | .const _ => 0x04
  | .memAbs _ => 0x01
  | .memReg _ => 0x11
  | .noMode => 0x00

/-- The same in the positions of the destination role: `DM` 0x02, `DC` 0x08, `DR` 0x20 (R63). -/
def Operand.dstFlags : Operand → Byte
  | .reg _ => 0x20
  | .const _ => 0x08
  | .memAbs _ => 0x02
  | .memReg _ => 0x22
  | .noMode => 0x00

/-- The data word R84 gives a form. -/
def Operand.word : Operand → Word
  | .reg w => w
  | .const w => w
  | .memAbs w => w
  | .memReg w => w
  | .noMode => 0

/-- The destination operand an instruction uses (R69); `noMode`, whose flags and word are 0, where it uses none (R85). -/
def Instr.dstOperand : Instr → Operand
  | .mov dst _ => dst
  | .jmp dst => dst
  | .inc dst => dst
  | .dec dst => dst
  | .pop dst => dst
  | .call dst => dst
  | .nop => .noMode
  | .hlt => .noMode
  | .push _ => .noMode
  | .ret => .noMode

/-- The source operand an instruction uses (R69), in the same way. -/
def Instr.srcOperand : Instr → Operand
  | .mov _ src => src
  | .push src => src
  | .nop => .noMode
  | .hlt => .noMode
  | .jmp _ => .noMode
  | .inc _ => .noMode
  | .dec _ => .noMode
  | .pop _ => .noMode
  | .call _ => .noMode
  | .ret => .noMode

/-- The canonical record of an instruction (R85). -/
def Instr.record (i : Instr) : Record :=
  { opcode := i.opcode
    flags := i.dstOperand.dstFlags ||| i.srcOperand.srcFlags
    sizeSrc := 0
    sizeDst := 0
    op1 := i.dstOperand.word
    op2 := i.srcOperand.word }

/-- The 19 bytes of the canonical record. -/
def encode (i : Instr) : List Byte := i.record.toBytes

/-! ### Words numbered as spec/opcode_table.json numbers them -/

/-- The 19 bytes of the record whose low `nbits` bits are `w` and whose other bits are 0. -/
def tableWordBytes (nbits w : Nat) : List Byte := leBytes recordSize (w % 2 ^ nbits)

/-- The instruction the decoder reads from such a record. -/
def decodeTableWord (nbits w : Nat) : Option Instr :=
  match decode (tableWordBytes nbits w) with
  | .ok (i, _) => some i
  | .error _ => none

end Sys2Proof
end

