-- ==== Sys2Proof/Config.lean ====
section
/-! DEFINITION. The implementation parameters of spec/00_scope.md R8 and R9.
They are fixed for the lifetime of one CORE instance (20_memory.md R55). State carries them as plain data that no step
changes, so a claim about every state is a claim about every value of every parameter. -/

namespace Sys2Proof

/-- The three parameters the spec leaves to the instance. `memSize` is 64 bits wide because R8 bounds `MEM_SIZE` by
`0 <= MEM_SIZE <= 2^64 - 1`, which is exactly the range of a word. -/
structure Config where
  /-- `MEM_SIZE`, the capacity of memory in bytes (R8). -/
  memSize : Word
  /-- `SP_RESET`, the stack pointer after reset (R9). -/
  spReset : Word
  /-- `IVEC_RESET`, the interrupt-vector register after reset (R9). -/
  ivecReset : Word
deriving DecidableEq, Repr

/-- The parameters `State.reset` uses: the common start of the spec's own vectors (95_test_vectors.md section 2).
DESIGN CHOICE for `MEM_SIZE` and `SP_RESET`, which D14 and D15 leave OPEN (log entry 1, unsafe for a claim about
`State.reset` alone); `IVEC_RESET` is its default 0 (D16). -/
def Config.vectorStart : Config := { memSize := 0x200, spReset := 0x100, ivecReset := 0 }

end Sys2Proof
end

