-- ==== Sys2Proof/Machine/State.lean ====
section
/-! DEFINITION. The whole state of one CORE instance (spec/10_state.md R20 to R38), plain data, and its reset. -/

namespace Sys2Proof.Machine

open Sys2Proof

/-- The four fault kinds (60_exceptions.md R150), the argument of `raise F(kind)` (00_scope.md R14). -/
inductive FaultKind where
  | invalidOpcode
  | badRegisterIndex
  | memoryAccessOutOfRange
  | badOperandFlagCombination
deriving DecidableEq, Repr

/-- `run_state` (R27). -/
inductive RunState where
  | running
  | faulted
deriving DecidableEq, Repr

/-- `fault_record` (R28): the most recent fault. A `kind` of `none` is the code 0 of R150. -/
structure FaultRecord where
  valid : Bool
  kind : Option FaultKind
  faultIp : Word
  faultSp : Word
deriving DecidableEq, Repr

/-- What LOAD must know of the run so far (70_reset_and_hazards.md R182): whether a step has run since RESET, and
whether an image has been loaded. DEDUCED from R182, which names the conditions and not the register (log entry 5). -/
inductive HostPhase where
  /-- RESET was the last action. -/
  | afterReset
  /-- An image has been loaded and no step has fetched. -/
  | loaded
  /-- A step has fetched since RESET. -/
  | started
deriving DecidableEq, Repr

/-- Memory as the bytes that differ from what an unlisted address reads as, addresses strictly rising; the form and the
operations that keep it stand in Machine/Ops.lean. -/
abbrev Memory := List Host.Cell

/-- The state of one CORE instance. -/
structure State where
  /-- `x[0]` to `x[7]` (R20). -/
  regs : Vector Word 8
  /-- The instruction pointer (R23). -/
  ip : Word
  /-- The stack pointer, the address of the next free slot (R24). -/
  sp : Word
  /-- The flags word; bit 0 is `HALT` (R25). -/
  flags : Word
  /-- The interrupt-vector register; 0 means no vector is installed (R26). -/
  ivec : Word
  /-- Running or Faulted (R27). -/
  runState : RunState
  /-- The most recent fault (R28). -/
  faultRecord : FaultRecord
  /-- Steps that fetched, modulo 2^64 (R29). -/
  cycles : Word
  /-- The bytes `M[0 .. MEM_SIZE-1]` (R30, R40). -/
  mem : Memory
  /-- How far the host's reset, load, run order has come (R182). -/
  phase : HostPhase
  /-- The instance's parameters, which no step changes (R8, R9, R55). -/
  cfg : Config
deriving DecidableEq, Repr

/-- Why a step answers a fault. Raising one of the four faults of R150 is no such answer: it is a next state, with
`fault_record` written. -/
inductive Fault where
  /-- Raised by `step` alone, in a state whose `run_state` is Faulted: the `Faulted(kind, ip, sp)` of 30_encoding.md R81,
  with the record's three values; the state stays as it is. Safe: the machine makes no progress there either (R158). -/
  | terminal (kind : Option FaultKind) (ip sp : Word)
deriving DecidableEq, Repr

/-- Why a step refuses. No step of this model does. -/
inductive Refusal where
  /-- Raised by an arm of `exec` for an instruction without a meaning; there is none. Safe. -/
  | notModelled (mnemonic : String)
deriving DecidableEq, Repr

/-- `fault_record` after RESET: invalid, the other fields 0 (R36). -/
def FaultRecord.empty : FaultRecord := { valid := false, kind := none, faultIp := 0, faultSp := 0 }

/-- The state after RESET of an instance with parameters `c` (70_reset_and_hazards.md R180; 10_state.md R31 to R38). -/
def State.resetWith (c : Config) : State :=
  { regs := Vector.replicate 8 0
    ip := 0
    sp := c.spReset
    flags := 0
    ivec := c.ivecReset
    runState := .running
    faultRecord := .empty
    cycles := 0
    mem := []
    phase := .afterReset
    cfg := c }

/-- The machine right after reset, with the parameters of log entry 1. -/
def State.reset : State := State.resetWith .vectorStart

end Sys2Proof.Machine
end

