-- ==== Sys2Proof/Machine/Flags.lean ====
section
/-! DEFINITION. The flags word (spec/10_state.md R25). It has one field, `HALT`; there are no condition codes, so no
instruction computes a flag from a result and none tests one. -/

namespace Sys2Proof.Machine

open Sys2Proof

/-- Bit 0 of `flags` (R25, D12). -/
def haltMask : Word := 1

/-- `HALT = 1`: the engine dispatches nothing (R25). -/
def State.halted (s : State) : Bool := s.flags.getLsbD 0

/-- `flags[0] <- 1`, no other bit written (41_basic.md R102). -/
def State.setHalt (s : State) : State := { s with flags := s.flags ||| haltMask }

/-- `flags[0] <- 0`. No instruction and no step does this; only `State.withFetchWord` uses it. -/
def State.clearHalt (s : State) : State := { s with flags := s.flags &&& ~~~haltMask }

/-- The reserved bits 63:1 read as 0 (R25, V7). -/
def reservedFlagsZero (flags : Word) : Bool := flags &&& ~~~haltMask == 0

end Sys2Proof.Machine
end

