-- ==== Sys2Proof/Machine/Ops.lean ====
section
/-! DEFINITION. The operations every instruction shares: memory (spec/20_memory.md), registers (10_state.md R20 to R22),
the stack slots (44_stack.md), the fault controller (60_exceptions.md R156 to R161) and the front of a step
(30_encoding.md R80, R81). There is no return from a fault (R165), so none stands beside `raiseFault`. -/

namespace Sys2Proof.Machine

open Sys2Proof

/-! ### Bytes of memory -/

/-- What an address that is not listed reads as: memory is zero-initialised (R38, R40). -/
def unlistedByte : Byte := 0

/-- The byte at address `a`. -/
def Memory.byte : Memory → Nat → Byte
  | [], _ => unlistedByte
  | (b, v) :: rest, a => if b = a then v else Memory.byte rest a

/-- Forget every entry at address `a`. -/
def Memory.eraseAt : Memory → Nat → Memory
  | [], _ => []
  | (b, v) :: rest, a => if b = a then Memory.eraseAt rest a else (b, v) :: Memory.eraseAt rest a

/-- Put an entry before the first one with a larger address. -/
def Memory.insertAt : Memory → Nat → Byte → Memory
  | [], a, v => [(a, v)]
  | (b, w) :: rest, a, v => if a < b then (a, v) :: (b, w) :: rest else (b, w) :: Memory.insertAt rest a v

/-- Write one byte, keeping the canonical form. -/
def Memory.setByte (m : Memory) (a : Nat) (v : Byte) : Memory :=
  if v = unlistedByte then Memory.eraseAt m a else Memory.insertAt (Memory.eraseAt m a) a v

/-- The `n` bytes from address `a` upward. -/
def Memory.load (m : Memory) (a : Nat) : Nat → List Byte
  | 0 => []
  | n + 1 => Memory.byte m a :: Memory.load m (a + 1) n

/-- Write bytes from address `a` upward, lowest first (R43). -/
def Memory.store (m : Memory) (a : Nat) : List Byte → Memory
  | [] => m
  | b :: bs => Memory.store (Memory.setByte m a b) (a + 1) bs

/-- Addresses strictly rising from `lo`, and no entry equal to what an unlisted address reads as. -/
def Memory.canonicalFrom (lo : Nat) : Memory → Bool
  | [] => true
  | (a, v) :: rest => lo ≤ a && v != unlistedByte && Memory.canonicalFrom (a + 1) rest

/-- The canonical form: equal memories are equal lists. -/
def Memory.wf (m : Memory) : Bool := Memory.canonicalFrom 0 m

/-! ### Bounds-checked access -/

/-- The four access widths of the memory subsystem (R42, R43, R47). -/
inductive Width where
  | w1
  | w2
  | w4
  | w8
deriving DecidableEq, Repr

/-- The width in bytes. -/
def Width.bytes : Width → Nat
  | .w1 => 1
  | .w2 => 2
  | .w4 => 4
  | .w8 => 8

/-- The bounds predicate of R41, over the unbounded integers (D27). -/
abbrev InRange (s : State) (addr : Word) (n : Nat) : Prop := addr.toNat + n ≤ s.cfg.memSize.toNat

/-- The value read at `addr`, once it is known to be in range (R42). -/
def readMem (s : State) (addr : Word) (n : Width) : Word := leWord (Memory.load s.mem addr.toNat n.bytes)

/-- The write at `addr` of the low bits of `v`, once it is known to be in range (R43). -/
def writeMem (s : State) (addr : Word) (n : Width) (v : Word) : State :=
  { s with mem := Memory.store s.mem addr.toNat (leBytes n.bytes v.toNat) }

/-- `MemRead(addr, n)` (R42). -/
def memRead (s : State) (addr : Word) (n : Width) : Except FaultKind Word :=
  if InRange s addr n.bytes then .ok (readMem s addr n) else .error .memoryAccessOutOfRange

/-- `MemWrite(addr, n, v)` (R43). -/
def memWrite (s : State) (addr : Word) (n : Width) (v : Word) : Except FaultKind State :=
  if InRange s addr n.bytes then .ok (writeMem s addr n v) else .error .memoryAccessOutOfRange

/-! ### Registers -/

/-- What `visible_register` can name (R22): a general register or one of the two pseudo-registers, never `flags` or
`ivec`. No operand encoding names a pseudo-register; only call and ret do (D26). -/
inductive VisibleRegister where
  | general (i : Fin 8)
  | ip
  | sp
deriving DecidableEq, Repr

/-- `general_register(index)`: the whole word is the index, and 8 or more is a fault (R21). -/
def generalRegister (index : Word) : Except FaultKind (Fin 8) :=
  if h : index.toNat < 8 then .ok ⟨index.toNat, h⟩ else .error .badRegisterIndex

/-- Read of a visible register (R20, R22). -/
def State.readReg (s : State) : VisibleRegister → Word
  | .general i => s.regs[i]
  | .ip => s.ip
  | .sp => s.sp

/-- Write of a visible register (R20, R22). -/
def State.writeReg (s : State) (r : VisibleRegister) (v : Word) : State :=
  match r with
  | .general i => { s with regs := s.regs.set i v }
  | .ip => { s with ip := v }
  | .sp => { s with sp := v }

/-! ### Stack slots -/

/-- The check of the slot `[sp, sp + 8)` that push and call make (R125, R135). -/
def checkPushSlot (s : State) : Except FaultKind Unit :=
  if InRange s s.sp 8 then .ok () else .error .memoryAccessOutOfRange

/-- Write `v` at `sp`, then move `sp` up (R24, R125). -/
def pushWord (s : State) (v : Word) : State := (writeMem s s.sp .w8 v).writeReg .sp (s.sp + 8)

/-- The check of the slot `[sp - 8, sp)` that pop and ret make; it answers the slot's address (R126, R136). -/
def checkPopSlot (s : State) : Except FaultKind Word :=
  if InRange s (s.sp - 8) 8 then .ok (s.sp - 8) else .error .memoryAccessOutOfRange

/-! ### The fault controller -/

/-- The code of a kind (R150, D19). -/
def FaultKind.code : FaultKind → Nat
  | .invalidOpcode => 1
  | .badRegisterIndex => 2
  | .memoryAccessOutOfRange => 3
  | .badOperandFlagCombination => 4

/-- The code `fault_record.kind` holds; 0 for none (R150). -/
def FaultRecord.code (r : FaultRecord) : Nat :=
  match r.kind with
  | none => 0
  | some k => k.code

/-- `RaiseFault(kind)`, the one funnel (R156, R157): record the fault with `ip` and `sp` as they are; with no vector
installed the core becomes Faulted (R158), with one installed nothing else happens (R159). -/
def raiseFault (k : FaultKind) (s : State) : State :=
  { s with
    faultRecord := { valid := true, kind := some k, faultIp := s.ip, faultSp := s.sp }
    runState := if s.ivec = 0 then .faulted else s.runState }

/-- The end of an instruction: its result, or the state it started from with the fault raised in it, because a raise
abandons every write of the instruction (00_scope.md R14, 60_exceptions.md R160). -/
def conclude (s : State) : Except FaultKind State → Host.Outcome State Fault Refusal
  | .ok t => .next t
  | .error k => .next (raiseFault k s)

/-! ### The front of a step -/

/-- A step that fetches counts itself (R29, R81), and from then on LOAD is refused (R182). -/
def beginStep (s : State) : State := { s with cycles := s.cycles + 1, phase := .started }

/-- The advance of `ip` by one record (R23, R81). -/
def advanceIp (s : State) : State := s.writeReg .ip (s.ip + BitVec.ofNat 64 recordSize)

/-- `FetchRecord(ip)`: one bounds check over the whole record before any byte is read (R44, R80). -/
def fetchRecord (s : State) : Except FaultKind (List Byte) :=
  if InRange s s.ip recordSize then .ok (Memory.load s.mem s.ip.toNat recordSize)
  else .error .memoryAccessOutOfRange

/-- The fault each rejection of the decoder raises (R64, R68, R80). -/
def decodeFault : DecodeError → FaultKind
  | .truncated => .memoryAccessOutOfRange
  | .invalidOpcode _ => .invalidOpcode
  | .reservedFlagBits => .badOperandFlagCombination

/-- Fetch, advance, opcode check, reserved-bit check, in that order (R81). It answers the instruction and the state its
handler sees, or the fault and the state it is raised in: `ip` is not advanced for a fetch fault, and is for the rest. -/
def fetchDecode (s : State) : Except (FaultKind × State) (Instr × State) :=
  match fetchRecord s with
  | .error k => .error (k, s)
  | .ok bytes =>
    match decode bytes with
    | .error e => .error (decodeFault e, advanceIp s)
    | .ok (i, _) => .ok (i, advanceIp s)

end Sys2Proof.Machine
end

