-- ==== Sys2Proof/Machine/Operands.lean ====
section
/-! DEFINITION. The operand resolver (spec/30_encoding.md R70 to R77): every operand form the encoding admits. -/

namespace Sys2Proof.Machine

open Sys2Proof

/-- A resolved operand (R70): its checks are done, so reading or writing it cannot fault. -/
inductive Location where
  | reg (i : Fin 8)
  | mem (a : Word)
  | imm (v : Word)
deriving DecidableEq, Repr

/-- The bounds check of an 8-byte memory operand (R72, R73). -/
def locateMem (s : State) (a : Word) : Except FaultKind Location :=
  if InRange s a 8 then .ok (.mem a) else .error .memoryAccessOutOfRange

/-- `Locate(r, kind)` (R71). -/
def locate (s : State) (o : Operand) (k : Access) : Except FaultKind Location :=
  match o with
  | .memReg w =>
    match generalRegister w with
    | .error e => .error e
    | .ok i => locateMem s (s.readReg (.general i))
  | .memAbs w => locateMem s w
  | .const w =>
    match k with
    | .read => .ok (.imm w)
    | .write => .error .badOperandFlagCombination
  | .reg w =>
    match generalRegister w with
    | .error e => .error e
    | .ok i => .ok (.reg i)
  | .noMode => .error .badOperandFlagCombination

/-- `ReadLoc(loc)` (R77). -/
def readLoc (s : State) : Location → Word
  | .reg i => s.readReg (.general i)
  | .mem a => readMem s a .w8
  | .imm v => v

/-- `WriteLoc(loc, v)` (R77). `locate` answers no `imm` for a write, so the last arm is never reached. -/
def writeLoc (s : State) (l : Location) (v : Word) : State :=
  match l with
  | .reg i => s.writeReg (.general i) v
  | .mem a => writeMem s a .w8 v
  | .imm _ => s

end Sys2Proof.Machine
end

