-- ==== Sys2Proof/Machine/Basic.lean ====
section
/-! DEFINITION. No-op, move and halt (spec/41_basic.md). `effectX` is the rule's pseudocode: a state, or the fault the
first failing check raises. `execX` is the instruction's meaning, that effect concluded through the fault controller. -/

namespace Sys2Proof.Machine

open Sys2Proof

/-- `Execute_nop` (R100). -/
def effectNop (s : State) : Except FaultKind State := .ok s

/-- `Execute_mov` (R101): the source is located before the destination, and read whole before the write (D32). -/
def effectMov (dst src : Operand) (s : State) : Except FaultKind State := do
  let a ← locate s src .read
  let b ← locate s dst .write
  return writeLoc s b (readLoc s a)

/-- `Execute_hlt` (R102). -/
def effectHlt (s : State) : Except FaultKind State := .ok s.setHalt

/-- `nop` (R100). -/
def execNop (s : State) : Host.Outcome State Fault Refusal := conclude s (effectNop s)

/-- `mov dst, src` (R101). -/
def execMov (dst src : Operand) (s : State) : Host.Outcome State Fault Refusal := conclude s (effectMov dst src s)

/-- `hlt` (R102). -/
def execHlt (s : State) : Host.Outcome State Fault Refusal := conclude s (effectHlt s)

end Sys2Proof.Machine
end

