-- ==== Sys2Proof/Machine/CallReturn.lean ====
section
/-! DEFINITION. Call and return (spec/45_call_return.md), push and pop of the pseudo-register `ip` (10_state.md R22).
`ip` already holds the address of the next record when either runs (90_conflicts.md C12). -/

namespace Sys2Proof.Machine

open Sys2Proof

/-- `Execute_call` (R135): slot, then destination; the destination's value is read after the push (D24). -/
def effectCall (dst : Operand) (s : State) : Except FaultKind State := do
  let _ ← checkPushSlot s
  let t ← locate s dst .read
  let pushed := pushWord s (s.readReg .ip)
  return pushed.writeReg .ip (readLoc pushed t)

/-- `Execute_ret` (R136). -/
def effectRet (s : State) : Except FaultKind State := do
  let nsp ← checkPopSlot s
  return (s.writeReg .sp nsp).writeReg .ip (readMem s nsp .w8)

/-- `call dst` (R135). -/
def execCall (dst : Operand) (s : State) : Host.Outcome State Fault Refusal := conclude s (effectCall dst s)

/-- `ret` (R136). -/
def execRet (s : State) : Host.Outcome State Fault Refusal := conclude s (effectRet s)

end Sys2Proof.Machine
end

