-- ==== Sys2Proof/Machine/IncDec.lean ====
section
/-! DEFINITION. Increment and decrement (spec/43_increment_decrement.md): modulo 2^64, no flag (D28). -/

namespace Sys2Proof.Machine

open Sys2Proof

/-- The read-modify-write both share: one check covers both halves (R115). -/
def modifyLoc (f : Word → Word) (dst : Operand) (s : State) : Except FaultKind State := do
  let t ← locate s dst .write
  return writeLoc s t (f (readLoc s t))

/-- `Execute_inc` (R115). -/
def effectInc (dst : Operand) (s : State) : Except FaultKind State := modifyLoc (· + 1) dst s

/-- `Execute_dec` (R116). -/
def effectDec (dst : Operand) (s : State) : Except FaultKind State := modifyLoc (· - 1) dst s

/-- `inc dst` (R115). -/
def execInc (dst : Operand) (s : State) : Host.Outcome State Fault Refusal := conclude s (effectInc dst s)

/-- `dec dst` (R116). -/
def execDec (dst : Operand) (s : State) : Host.Outcome State Fault Refusal := conclude s (effectDec dst s)

end Sys2Proof.Machine
end

