-- ==== Sys2Proof/Machine/Jump.lean ====
section
/-! DEFINITION. Jump (spec/42_jump.md). -/

namespace Sys2Proof.Machine

open Sys2Proof

/-- `Execute_jmp` (R110): the destination is resolved for read, so a constant is legal (90_conflicts.md C1). -/
def effectJmp (dst : Operand) (s : State) : Except FaultKind State := do
  let t ← locate s dst .read
  return s.writeReg .ip (readLoc s t)

/-- `jmp dst` (R110). -/
def execJmp (dst : Operand) (s : State) : Host.Outcome State Fault Refusal := conclude s (effectJmp dst s)

end Sys2Proof.Machine
end

