-- ==== Sys2Proof/Machine/Stack.lean ====
section
/-! DEFINITION. Push and pop (spec/44_stack.md). Every check precedes the first write (90_conflicts.md C3). -/

namespace Sys2Proof.Machine

open Sys2Proof

/-- `Execute_push` (R125): source, then slot; the source is read before the slot is written. -/
def effectPush (src : Operand) (s : State) : Except FaultKind State := do
  let a ← locate s src .read
  let _ ← checkPushSlot s
  return pushWord s (readLoc s a)

/-- `Execute_pop` (R126): slot, then destination; the slot is read before the destination is written. -/
def effectPop (dst : Operand) (s : State) : Except FaultKind State := do
  let nsp ← checkPopSlot s
  let t ← locate s dst .write
  return writeLoc (s.writeReg .sp nsp) t (readMem s nsp .w8)

/-- `push src` (R125). -/
def execPush (src : Operand) (s : State) : Host.Outcome State Fault Refusal := conclude s (effectPush src s)

/-- `pop dst` (R126). -/
def execPop (dst : Operand) (s : State) : Host.Outcome State Fault Refusal := conclude s (effectPop dst s)

end Sys2Proof.Machine
end

