-- ==== Sys2Proof/Machine/Dispatch.lean ====
section
/-! DEFINITION. `Execute(d)` (spec/30_encoding.md R82): one arm per instruction. -/

namespace Sys2Proof.Machine

open Sys2Proof

def exec (i : Instr) (s : State) : Host.Outcome State Fault Refusal :=
  match i with
  -- 41_basic.md
  | .nop => Sys2Proof.Machine.execNop s
  | .mov dst src => Sys2Proof.Machine.execMov dst src s
  | .hlt => Sys2Proof.Machine.execHlt s
  -- 42_jump.md
  | .jmp dst => Sys2Proof.Machine.execJmp dst s
  -- 43_increment_decrement.md
  | .inc dst => Sys2Proof.Machine.execInc dst s
  | .dec dst => Sys2Proof.Machine.execDec dst s
  -- 44_stack.md
  | .push src => Sys2Proof.Machine.execPush src s
  | .pop dst => Sys2Proof.Machine.execPop dst s
  -- 45_call_return.md
  | .call dst => Sys2Proof.Machine.execCall dst s
  | .ret => Sys2Proof.Machine.execRet s

end Sys2Proof.Machine
end

