-- ==== Sys2Proof/Machine/Step.lean ====
section
/-! DEFINITION. The execution step (spec/30_encoding.md R81), and the placing of one instruction where it fetches. -/

namespace Sys2Proof.Machine

open Sys2Proof

/-- One `Step()` (R81). In the Faulted state it answers the fault with the record's values and no state; while `HALT` is
set it does nothing; otherwise it counts itself, fetches, advances `ip`, decodes and executes. A fault raised on the way
is a next state (R157). -/
def step (s : State) : Host.Outcome State Fault Refusal :=
  if s.runState = .faulted then
    .fault (.terminal s.faultRecord.kind s.faultRecord.faultIp s.faultRecord.faultSp)
  else if s.halted then .next s
  else
    match fetchDecode (beginStep s) with
    | .error (k, t) => .next (raiseFault k t)
    | .ok (i, t) => exec i t

/-- `s` with the record of `nbits` and `w` stored at `ip`, and Running with `HALT` clear, which a step needs in order to
fetch. It stands for a load from outside the machine (log entry 6). -/
def State.withFetchWord (s : State) (nbits w : Nat) : State :=
  { s.clearHalt with
    runState := .running
    mem := Memory.store s.mem s.ip.toNat (tableWordBytes nbits w) }

end Sys2Proof.Machine
end

