-- ==== Sys2Proof/Machine/HostActions.lean ====
section
/-! DEFINITION. The actions of the host (spec/00_scope.md R6; 70_reset_and_hazards.md R180 to R188): RESET, LOAD, STEP
with its outcome, RUN with a budget, and OBSERVE. `step` is the same transition as `stepAction` in the package's own
interface, whose answer has no room for the outcome's name. -/

namespace Sys2Proof.Machine

open Sys2Proof

/-! ### RESET -/

/-- `RESET` (R180, R181), in any state; the instance keeps its parameters (20_memory.md R55). -/
def resetAction (s : State) : State := State.resetWith s.cfg

/-! ### LOAD -/

/-- The refusal of `LOAD` (R182, R183). -/
inductive LoadError where
  | loadError
deriving DecidableEq, Repr

/-- `LOAD(image)` (R182): only after RESET, before the first step, at most once, and only an image of 1 to `MEM_SIZE`
bytes. A refusal changes nothing (R183). -/
def loadAction (image : List Byte) (s : State) : Except LoadError State :=
  if s.phase = .afterReset ∧ 1 ≤ image.length ∧ image.length ≤ s.cfg.memSize.toNat then
    .ok { s with mem := Memory.store s.mem 0 image, phase := .loaded }
  else .error .loadError

/-! ### STEP -/

/-- The outcome of a step (R184). -/
inductive StepOutcome where
  | executed
  | halted
  | faulted (kind : Option FaultKind) (ip sp : Word)
  | hooked (kind : Option FaultKind) (ip sp : Word)
deriving DecidableEq, Repr

/-- The effect of one instruction before it is concluded: its result, or the fault it raises. -/
def effect (i : Instr) (s : State) : Except FaultKind State :=
  match i with
  | .nop => effectNop s
  | .mov dst src => effectMov dst src s
  | .hlt => effectHlt s
  | .jmp dst => effectJmp dst s
  | .inc dst => effectInc dst s
  | .dec dst => effectDec dst s
  | .push src => effectPush src s
  | .pop dst => effectPop dst s
  | .call dst => effectCall dst s
  | .ret => effectRet s

/-- The end of a step with outcome `Faulted` or `Hooked` (60_exceptions.md R157). -/
def raiseOutcome (k : FaultKind) (s : State) : StepOutcome × State :=
  (if s.ivec = 0 then .faulted (some k) s.ip s.sp else .hooked (some k) s.ip s.sp, raiseFault k s)

/-- `STEP` (R184; 30_encoding.md R81): the outcome and the state after it. -/
def stepAction (s : State) : StepOutcome × State :=
  if s.runState = .faulted then
    (.faulted s.faultRecord.kind s.faultRecord.faultIp s.faultRecord.faultSp, s)
  else if s.halted then (.halted, s)
  else
    match fetchDecode (beginStep s) with
    | .error (k, t) => raiseOutcome k t
    | .ok (i, t) =>
      match effect i t with
      | .error k => raiseOutcome k t
      | .ok u => (.executed, u)

/-! ### RUN -/

/-- What `RUN` returns (R185). -/
inductive RunOutcome where
  | halted
  | faulted (kind : Option FaultKind) (ip sp : Word)
  | budgetExhausted
deriving DecidableEq, Repr

/-- `RUN(budget)` (R185): the budget is checked before each step; `Halted` and `Faulted` stop the run, `Executed` and
`Hooked` do not. -/
def runAction : Nat → State → RunOutcome × State
  | 0, s => (.budgetExhausted, s)
  | budget + 1, s =>
    match stepAction s with
    | (.halted, t) => (.halted, t)
    | (.faulted k ip sp, t) => (.faulted k ip sp, t)
    | (.executed, t) => runAction budget t
    | (.hooked _ _ _, t) => runAction budget t

/-! ### OBSERVE -/

/-- The copy `OBSERVE` returns: every piece of state of 10_state.md, `M` byte by byte (R186). -/
structure Observation where
  regs : Vector Word 8
  ip : Word
  sp : Word
  flags : Word
  ivec : Word
  runState : RunState
  faultRecord : FaultRecord
  cycles : Word
  bytes : List Byte
deriving DecidableEq, Repr

/-- `OBSERVE` (R186); it changes nothing. -/
def observe (s : State) : Observation :=
  { regs := s.regs
    ip := s.ip
    sp := s.sp
    flags := s.flags
    ivec := s.ivec
    runState := s.runState
    faultRecord := s.faultRecord
    cycles := s.cycles
    bytes := Memory.load s.mem 0 s.cfg.memSize.toNat }

end Sys2Proof.Machine
end

