-- ==== Sys2Proof/Safety.lean ====
section
/-! DEFINITION. The terms claims are stated in: the invariant of a run, and the parts of it. Each part says which rule
of the spec rules the other states out. -/

namespace Sys2Proof.Machine

open Sys2Proof

/-! ### A step that fetches -/

/-- The step will fetch: the core is neither faulted nor halted (30_encoding.md R81). -/
abbrev Fetches (s : State) : Prop := s.runState = .running ∧ s.halted = false

/-- The state an instruction's handler sees in a step from `s`: `cycles` counted, `ip` at the next record, LOAD closed
(10_state.md R23, R29; 70_reset_and_hazards.md R182). -/
def handlerState (s : State) : State :=
  { s with cycles := s.cycles + 1, ip := s.ip + 19, phase := .started }

/-- The opcode byte of the record at `ip` (30_encoding.md R61). -/
def opcodeByte (s : State) : Byte := Memory.byte s.mem s.ip.toNat

/-- The flags byte of the record at `ip` (30_encoding.md R61). -/
def flagsByte (s : State) : Byte := Memory.byte s.mem (s.ip.toNat + 1)

/-! ### The invariant -/

/-- Every listed byte lies below the capacity (spec/20_memory.md R40, R41). -/
abbrev MemoryInside (s : State) : Prop := ∀ c ∈ s.mem, c.1 < s.cfg.memSize.toNat

/-- `fault_record` is all zero while invalid, and names a kind once valid (10_state.md R28, R36). -/
abbrev FaultRecordConsistent (r : FaultRecord) : Prop :=
  if r.valid then r.kind ≠ none else r = .empty

/-- The Faulted state is entered by an unvectored raise alone, and holds the `ip` and `sp` of that raise
(60_exceptions.md R157, R158, R161); it is not a halt. -/
abbrev FaultedIsTerminal (s : State) : Prop :=
  s.runState = .faulted →
    s.ivec = 0 ∧ s.faultRecord.valid = true ∧ s.faultRecord.faultIp = s.ip ∧ s.faultRecord.faultSp = s.sp
      ∧ s.halted = false

/-- Until a step has fetched, everything but memory is as RESET left it (70_reset_and_hazards.md R182: LOAD writes no
register). -/
abbrev NotStartedIsReset (s : State) : Prop :=
  s.phase ≠ .started → s = { State.resetWith s.cfg with mem := s.mem, phase := s.phase }

/-- The invariant of every run. -/
structure Inv (s : State) : Prop where
  /-- Memory keeps its canonical form. -/
  memoryCanonical : s.mem.wf = true
  /-- No byte outside the capacity has been written. -/
  memoryInside : MemoryInside s
  /-- The reserved bits of `flags` read as 0 (10_state.md R25). -/
  reservedFlags : reservedFlagsZero s.flags = true
  /-- `ivec` keeps its reset value (10_state.md R26). -/
  vectorFixed : s.ivec = s.cfg.ivecReset
  /-- The fault record is consistent. -/
  recordConsistent : FaultRecordConsistent s.faultRecord
  /-- The Faulted state is terminal. -/
  faultedTerminal : FaultedIsTerminal s
  /-- Before the first fetching step the machine is as reset. -/
  notStarted : NotStartedIsReset s

end Sys2Proof.Machine
end

