-- ==== Sys2Proof/Certificates/Slice0/Obligations.lean ====
section
/-! DEFINITION. The statements about LiquidCPU CORE for the provers. Each docstring names the rule of spec/ it states;
where a rule rests on one of the spec's own decisions (92_eei_decisions.md) or the statement on a log entry, it says so.
Of the rules named, the spec marks these as its own inferences, from other rules of it: R23 (the advance does not
wrap), R26 (`ivec` keeps its reset value), R34, R39, R46, R155, R159 (the step after a vectored fault), R161, R162,
R193. Wherever they appear, that a raised fault is a next state of `exec` and `step` is log entry 2, and the field
`phase` is log entry 5 (both DEDUCED). -/

open Sys2Proof Sys2Proof.Machine

/-! ### Encoding -/

/-- 30_encoding.md R60, R61, R67, R70, R85 (decisions D2, D3, D6, D31): the canonical record of every instruction,
with every operand form and every 64-bit operand word, decodes to that instruction, and the bytes after it are left
over. -/
def Obligations.EncodedInstructionDecodesBack : Prop :=
  ∀ (i : Instr) (rest : List Byte), decode (encode i ++ rest) = .ok (i, rest)

/-- 30_encoding.md R60, R61 (decision D2): records and 19-byte strings correspond one to one; no bit is dropped. A
string of fewer than 19 bytes holds no record, and the decoder rejects it by the model's own name `truncated` (log
entry 14, DEDUCED from R80). -/
def Obligations.RecordBytesAreLossless : Prop :=
  (∀ (r : Record) (rest : List Byte), Record.ofBytes (r.toBytes ++ rest) = some (r, rest)) ∧
  (∀ bs : List Byte, bs.length = 19 → ∃ r, Record.ofBytes bs = some (r, []) ∧ r.toBytes = bs) ∧
  (∀ bs : List Byte, bs.length < 19 → Record.ofBytes bs = none ∧ decode bs = .error .truncated)

/-- 30_encoding.md R61 (decision D2): viewed as one 152-bit little-endian number, the record holds its fields at the
bit positions of the layout table. -/
def Obligations.RecordFieldsAtLayoutBits : Prop :=
  ∀ bs : List Byte, bs.length = 19 →
    ∃ r, Record.ofBytes bs = some (r, []) ∧
      r.opcode = (BitVec.ofNat 152 (leNat bs)).extractLsb' 0 8 ∧
      r.flags = (BitVec.ofNat 152 (leNat bs)).extractLsb' 8 8 ∧
      r.sizeSrc = (BitVec.ofNat 152 (leNat bs)).extractLsb' 16 4 ∧
      r.sizeDst = (BitVec.ofNat 152 (leNat bs)).extractLsb' 20 4 ∧
      r.op1 = (BitVec.ofNat 152 (leNat bs)).extractLsb' 24 64 ∧
      r.op2 = (BitVec.ofNat 152 (leNat bs)).extractLsb' 88 64

/-- 30_encoding.md R67, R69 (decisions D6, D7): each opcode number selects its instruction, with the operands its row
uses, for every record whose reserved flag bits are 0. -/
def Obligations.OpcodeMapSelectsInstruction : Prop :=
  ∀ r : Record, r.reservedFlags = 0 →
    (r.opcode = 0x00 → decodeRecord r = .ok .nop) ∧
    (r.opcode = 0x01 → decodeRecord r = .ok (.mov r.dst r.src)) ∧
    (r.opcode = 0x02 → decodeRecord r = .ok .hlt) ∧
    (r.opcode = 0x03 → decodeRecord r = .ok (.jmp r.dst)) ∧
    (r.opcode = 0x04 → decodeRecord r = .ok (.inc r.dst)) ∧
    (r.opcode = 0x05 → decodeRecord r = .ok (.dec r.dst)) ∧
    (r.opcode = 0x06 → decodeRecord r = .ok (.push r.src)) ∧
    (r.opcode = 0x07 → decodeRecord r = .ok (.pop r.dst)) ∧
    (r.opcode = 0x08 → decodeRecord r = .ok (.call r.dst)) ∧
    (r.opcode = 0x09 → decodeRecord r = .ok .ret)

/-- 30_encoding.md R64, R68, R81 (decisions D4, D6): an opcode of 0x0A or more is rejected as such whatever the flag
bits are; under a defined opcode, reserved flag bits that are not 0 are rejected; every other record is an instruction
with that opcode. -/
def Obligations.IllegalRecordsRejectedOpcodeFirst : Prop :=
  ∀ r : Record,
    (0x0A ≤ r.opcode.toNat → decodeRecord r = .error (.invalidOpcode r.opcode)) ∧
    (r.opcode.toNat < 0x0A → r.reservedFlags ≠ 0 → decodeRecord r = .error .reservedFlagBits) ∧
    (r.opcode.toNat < 0x0A → r.reservedFlags = 0 → ∃ i, decodeRecord r = .ok i ∧ i.opcode = r.opcode)

/-- 30_encoding.md R63, R66, R70 (decisions D3, D7, D9): the eight combinations of the memory, constant and register
bits of a role select its operand, for the source with bits 0, 2, 4 and `op2`, for the destination with bits 1, 3, 5
and `op1`. -/
def Obligations.OperandModePriority : Prop :=
  ∀ r : Record,
    (∀ m c g : Bool, r.flags.getLsbD 0 = m → r.flags.getLsbD 2 = c → r.flags.getLsbD 4 = g →
      (m = false → c = false → g = false → r.src = .noMode) ∧
      (m = false → c = false → g = true → r.src = .reg r.op2) ∧
      (m = false → c = true → r.src = .const r.op2) ∧
      (m = true → g = false → r.src = .memAbs r.op2) ∧
      (m = true → g = true → r.src = .memReg r.op2)) ∧
    (∀ m c g : Bool, r.flags.getLsbD 1 = m → r.flags.getLsbD 3 = c → r.flags.getLsbD 5 = g →
      (m = false → c = false → g = false → r.dst = .noMode) ∧
      (m = false → c = false → g = true → r.dst = .reg r.op1) ∧
      (m = false → c = true → r.dst = .const r.op1) ∧
      (m = true → g = false → r.dst = .memAbs r.op1) ∧
      (m = true → g = true → r.dst = .memReg r.op1))

/-- 30_encoding.md R65, R69, R79 (decisions D5, D35): decoding depends on the opcode, the reserved flag bits and the
fields of the roles the opcode uses, and on nothing else: the size nibbles, the flag bits of an unused role and its
data word may hold any value. -/
def Obligations.UnusedFieldsAreIgnored : Prop :=
  ∀ r r' : Record, r.opcode = r'.opcode → r.reservedFlags = r'.reservedFlags →
    (r.opcode.toNat ∈ [0x01, 0x03, 0x04, 0x05, 0x07, 0x08] →
      r.flags.getLsbD 1 = r'.flags.getLsbD 1 ∧ r.flags.getLsbD 3 = r'.flags.getLsbD 3 ∧
        r.flags.getLsbD 5 = r'.flags.getLsbD 5 ∧ r.op1 = r'.op1) →
    (r.opcode.toNat ∈ [0x01, 0x06] →
      r.flags.getLsbD 0 = r'.flags.getLsbD 0 ∧ r.flags.getLsbD 2 = r'.flags.getLsbD 2 ∧
        r.flags.getLsbD 4 = r'.flags.getLsbD 4 ∧ r.op2 = r'.op2) →
    decodeRecord r = decodeRecord r'

/-- 41_basic.md to 45_call_return.md, the Example of each rule: records of the spec, byte by byte, decode to the
instructions they stand for. -/
def Obligations.SpecExampleRecordsDecode : Prop :=
  decode [0x01, 0x24, 0, 0, 0, 0, 0, 0, 0, 0, 0, 0x23, 0x01, 0, 0, 0, 0, 0, 0] = .ok (.mov (.reg 0) (.const 0x123), []) ∧
  decode [0x03, 0x22, 0, 0x04, 0, 0, 0, 0, 0, 0, 0, 0, 0, 0, 0, 0, 0, 0, 0] = .ok (.jmp (.memReg 4), []) ∧
  decode [0x05, 0x22, 0, 0x01, 0, 0, 0, 0, 0, 0, 0, 0, 0, 0, 0, 0, 0, 0, 0] = .ok (.dec (.memReg 1), []) ∧
  decode [0x06, 0x10, 0, 0, 0, 0, 0, 0, 0, 0, 0, 0x03, 0, 0, 0, 0, 0, 0, 0] = .ok (.push (.reg 3), []) ∧
  decode [0x08, 0x08, 0, 0x39, 0, 0, 0, 0, 0, 0, 0, 0, 0, 0, 0, 0, 0, 0, 0] = .ok (.call (.const 57), [])

/-! ### Memory -/

/-- 20_memory.md R41 (decision D27): an access is valid exactly when its first and its last byte are in range, over
the unbounded integers; an end that passes 2^64 is out of range. -/
def Obligations.BoundsPredicateIsUnbounded : Prop :=
  ∀ (s : State) (addr : Word) (n : Nat), 1 ≤ n →
    (InRange s addr n ↔
      addr.toNat < s.cfg.memSize.toNat ∧ addr.toNat + n - 1 < s.cfg.memSize.toNat) ∧
    (2 ^ 64 ≤ addr.toNat + n → ¬ InRange s addr n)

/-- 20_memory.md R42 (decision D1): a read out of range raises `MemoryAccessOutOfRange`; a read in range returns the
little-endian sum of its bytes, for each of the four widths. -/
def Obligations.MemReadIsLittleEndianSum : Prop :=
  ∀ (s : State) (addr : Word) (n : Width),
    (¬ InRange s addr n.bytes → memRead s addr n = .error .memoryAccessOutOfRange) ∧
    (InRange s addr n.bytes →
      ∃ v, memRead s addr n = .ok v ∧
        v.toNat =
          ((List.range n.bytes).map fun k => (Memory.byte s.mem (addr.toNat + k)).toNat * 2 ^ (8 * k)).sum)

/-- 20_memory.md R43 (decision D1): a write out of range raises `MemoryAccessOutOfRange` and answers no state; a write
in range stores byte `k` of the value at `addr + k` and changes no other byte and nothing else. -/
def Obligations.MemWriteStoresLowBytes : Prop :=
  ∀ (s : State) (addr : Word) (n : Width) (v : Word),
    (¬ InRange s addr n.bytes → memWrite s addr n v = .error .memoryAccessOutOfRange) ∧
    (InRange s addr n.bytes →
      ∃ t, memWrite s addr n v = .ok t ∧ t = { s with mem := t.mem } ∧
        (∀ k, k < n.bytes → Memory.byte t.mem (addr.toNat + k) = v.extractLsb' (8 * k) 8) ∧
        (∀ b, b < addr.toNat ∨ addr.toNat + n.bytes ≤ b → Memory.byte t.mem b = Memory.byte s.mem b))

/-- 20_memory.md R46 (derived by the spec), and the property S2 of 95_test_vectors.md: after a write of `m` bytes, a
read of `n` bytes at offset `j` inside them returns bits `8j` upward of the value, cut to `8n` bits. -/
def Obligations.MixedWidthReadAfterWrite : Prop :=
  ∀ (s : State) (a b : Word) (m n : Width) (v : Word) (j : Nat),
    InRange s a m.bytes → j + n.bytes ≤ m.bytes → b.toNat = a.toNat + j →
    ∃ t, memWrite s a m v = .ok t ∧
      memRead t b n = .ok (BitVec.ofNat 64 (v.toNat / 2 ^ (8 * j) % 2 ^ (8 * n.bytes)))

/-! ### Registers and operands -/

/-- 10_state.md R21: an index 0 to 7 yields that register; any other value of the whole 64-bit word raises
`BadRegisterIndex`, with no reduction or truncation. -/
def Obligations.GeneralRegisterTakesWholeIndex : Prop :=
  ∀ index : Word,
    (∀ i : Fin 8, index.toNat = i.val → generalRegister index = .ok i) ∧
    (8 ≤ index.toNat → generalRegister index = .error .badRegisterIndex)

/-- 30_encoding.md R71 to R76 (decisions D8, D10): what `Locate` answers for every mode and both kinds. -/
def Obligations.LocateResolvesEveryMode : Prop :=
  ∀ (s : State) (k : Access) (w : Word),
    (8 ≤ w.toNat → locate s (.memReg w) k = .error .badRegisterIndex ∧
      locate s (.reg w) k = .error .badRegisterIndex) ∧
    (∀ i : Fin 8, w.toNat = i.val →
      locate s (.reg w) k = .ok (.reg i) ∧
      (InRange s s.regs[i] 8 → locate s (.memReg w) k = .ok (.mem s.regs[i])) ∧
      (¬ InRange s s.regs[i] 8 → locate s (.memReg w) k = .error .memoryAccessOutOfRange)) ∧
    (InRange s w 8 → locate s (.memAbs w) k = .ok (.mem w)) ∧
    (¬ InRange s w 8 → locate s (.memAbs w) k = .error .memoryAccessOutOfRange) ∧
    locate s (.const w) .read = .ok (.imm w) ∧
    locate s (.const w) .write = .error .badOperandFlagCombination ∧
    locate s .noMode k = .error .badOperandFlagCombination

/-- 30_encoding.md R77: reading and writing a location `Locate` returned cannot fault, and is the register or the
checked 8-byte access at its address; a constant reads as itself and is returned for a read alone. -/
def Obligations.LocatedAccessCannotFault : Prop :=
  ∀ (s : State) (o : Operand) (k : Access) (l : Location), locate s o k = .ok l →
    (∀ i, l = .reg i → readLoc s l = s.regs[i] ∧ ∀ v, writeLoc s l v = { s with regs := s.regs.set i v }) ∧
    (∀ a, l = .mem a → memRead s a .w8 = .ok (readLoc s l) ∧ ∀ v, memWrite s a .w8 v = .ok (writeLoc s l v)) ∧
    (∀ v, l = .imm v → k = .read ∧ readLoc s l = v)

/-! ### What each instruction does when it completes -/

/-- 41_basic.md R100: `nop` completes in every state and changes nothing; so a step on a record with opcode 0x00 and
the reserved flag bits 0, whatever its other fields hold, only advances `ip`, counts itself, and marks the host phase
as started (log entry 5). -/
def Obligations.NopStepOnlyAdvances : Prop :=
  (∀ s : State, exec .nop s = .next s) ∧
  (∀ s : State, Fetches s → InRange s s.ip 19 → opcodeByte s = 0x00 → (flagsByte s).extractLsb' 6 2 = 0 →
    step s = .next (handlerState s))

/-- 41_basic.md R101: with both operands resolvable, `mov` completes, and its destination location receives the value
the source location held before the write. -/
def Obligations.MovCopiesSourceToDestination : Prop :=
  ∀ (s : State) (dst src : Operand) (a b : Location), locate s src .read = .ok a → locate s dst .write = .ok b →
    exec (.mov dst src) s = .next (writeLoc s b (readLoc s a)) ∧
    readLoc (writeLoc s b (readLoc s a)) b = readLoc s a

/-- 41_basic.md R102: `hlt` completes in every state; it sets `HALT` and no other bit, and changes nothing else. A
step on a record with opcode 0x02 and the reserved flag bits 0 leaves `ip` at the next record, `cycles` counted, the
host phase started (log entry 5), and the core halted. -/
def Obligations.HltStepSetsHaltBit : Prop :=
  (∀ s : State, exec .hlt s = .next { s with flags := s.flags ||| 1 }) ∧
  (∀ s : State, Fetches s → InRange s s.ip 19 → opcodeByte s = 0x02 → (flagsByte s).extractLsb' 6 2 = 0 →
    ∃ t, step s = .next t ∧ t = { handlerState s with flags := s.flags ||| 1 } ∧ t.halted = true)

/-- 42_jump.md R110 (decision D10): with its destination resolvable for read, `jmp` completes and sets `ip` to its
value: a constant itself, a register's value, or the word stored at a memory operand. -/
def Obligations.JmpSetsInstructionPointer : Prop :=
  ∀ (s : State) (dst : Operand) (a : Location), locate s dst .read = .ok a →
    exec (.jmp dst) s = .next { s with ip := readLoc s a }

/-- 43_increment_decrement.md R115 (decision D28): with its destination resolvable for write, `inc` completes and the
destination becomes its old value plus 1 modulo 2^64. -/
def Obligations.IncAddsOneModulo : Prop :=
  ∀ (s : State) (dst : Operand) (b : Location), locate s dst .write = .ok b →
    ∃ t, exec (.inc dst) s = .next t ∧ t = writeLoc s b (readLoc t b) ∧
      (readLoc t b).toNat = ((readLoc s b).toNat + 1) % 2 ^ 64

/-- 43_increment_decrement.md R116 (decision D28): with its destination resolvable for write, `dec` completes and the
destination becomes its old value minus 1 modulo 2^64. -/
def Obligations.DecSubtractsOneModulo : Prop :=
  ∀ (s : State) (dst : Operand) (b : Location), locate s dst .write = .ok b →
    ∃ t, exec (.dec dst) s = .next t ∧ t = writeLoc s b (readLoc t b) ∧
      (readLoc t b).toNat = ((readLoc s b).toNat + (2 ^ 64 - 1)) % 2 ^ 64

/-- 44_stack.md R125: with its source resolvable and the slot at `sp` in range, `push` completes: the source's value,
read before the write, is the word at the old `sp`, and `sp` is 8 higher without wrapping. -/
def Obligations.PushStoresAndMovesUp : Prop :=
  ∀ (s : State) (src : Operand) (a : Location), locate s src .read = .ok a → InRange s s.sp 8 →
    ∃ t, exec (.push src) s = .next t ∧ t = { s with mem := t.mem, sp := s.sp + 8 } ∧
      memRead t s.sp .w8 = .ok (readLoc s a) ∧ t.sp.toNat = s.sp.toNat + 8

/-- 44_stack.md R126: with `8 <= sp <= MEM_SIZE` and its destination resolvable, `pop` completes: `sp` is 8 lower and
the destination receives the word of the slot, read before the write. -/
def Obligations.PopLoadsAndMovesDown : Prop :=
  ∀ (s : State) (dst : Operand) (b : Location),
    8 ≤ s.sp.toNat → s.sp.toNat ≤ s.cfg.memSize.toNat → locate s dst .write = .ok b →
    ∃ v, memRead s (s.sp - 8) .w8 = .ok v ∧
      exec (.pop dst) s = .next (writeLoc { s with sp := s.sp - 8 } b v)

/-- 45_call_return.md R135 (decision D24): with the slot at `sp` in range and its destination resolvable for read,
`call` completes: `ip`, the address of the next record, is written at the old `sp`, `sp` is 8 higher, and `ip` becomes
the destination's value, read after the push. -/
def Obligations.CallPushesThenJumps : Prop :=
  ∀ (s : State) (dst : Operand) (a : Location), InRange s s.sp 8 → locate s dst .read = .ok a →
    ∃ u, memWrite s s.sp .w8 s.ip = .ok u ∧
      exec (.call dst) s = .next { u with sp := s.sp + 8, ip := readLoc { u with sp := s.sp + 8 } a }

/-- 45_call_return.md R136: with `8 <= sp <= MEM_SIZE`, `ret` completes: `sp` is 8 lower and `ip` is the word of the
slot; nothing else changes. -/
def Obligations.RetPopsInstructionPointer : Prop :=
  ∀ s : State, 8 ≤ s.sp.toNat → s.sp.toNat ≤ s.cfg.memSize.toNat →
    ∃ v, memRead s (s.sp - 8) .w8 = .ok v ∧ exec .ret s = .next { s with sp := s.sp - 8, ip := v }

/-- 60_exceptions.md R163 (decisions D22, D23, D24): the order of each instruction's own checks. The first that fails
is raised, in the state the instruction started from. -/
def Obligations.InstructionChecksInOrder : Prop :=
  ∀ (s : State) (dst src : Operand) (k : FaultKind),
    (locate s src .read = .error k → exec (.mov dst src) s = .next (raiseFault k s)) ∧
    (∀ a, locate s src .read = .ok a → locate s dst .write = .error k →
      exec (.mov dst src) s = .next (raiseFault k s)) ∧
    (locate s dst .read = .error k → exec (.jmp dst) s = .next (raiseFault k s)) ∧
    (locate s dst .write = .error k →
      exec (.inc dst) s = .next (raiseFault k s) ∧ exec (.dec dst) s = .next (raiseFault k s)) ∧
    (locate s src .read = .error k → exec (.push src) s = .next (raiseFault k s)) ∧
    (∀ a, locate s src .read = .ok a → ¬ InRange s s.sp 8 →
      exec (.push src) s = .next (raiseFault .memoryAccessOutOfRange s)) ∧
    (s.sp.toNat < 8 ∨ s.cfg.memSize.toNat < s.sp.toNat →
      exec (.pop dst) s = .next (raiseFault .memoryAccessOutOfRange s) ∧
      exec .ret s = .next (raiseFault .memoryAccessOutOfRange s)) ∧
    (8 ≤ s.sp.toNat → s.sp.toNat ≤ s.cfg.memSize.toNat → locate s dst .write = .error k →
      exec (.pop dst) s = .next (raiseFault k s)) ∧
    (¬ InRange s s.sp 8 → exec (.call dst) s = .next (raiseFault .memoryAccessOutOfRange s)) ∧
    (InRange s s.sp 8 → locate s dst .read = .error k → exec (.call dst) s = .next (raiseFault k s))

/-! ### Frames: what each instruction leaves unchanged -/

/-- 10_state.md R39 (derived by the spec), for `mov`, `inc` and `dec`: they write the destination location and nothing
else; a raised fault writes the fault controller's state alone. -/
def Obligations.MovIncDecFrame : Prop :=
  ∀ (s t : State) (dst src : Operand) (i : Instr), i = .mov dst src ∨ i = .inc dst ∨ i = .dec dst →
    exec i s = .next t →
    (∀ j : Fin 8, (∀ w, dst = .reg w → w.toNat ≠ j.val) → t.regs[j] = s.regs[j]) ∧
    (∀ a, locate s dst .write = .ok (.mem a) →
      ∀ b, b < a.toNat ∨ a.toNat + 8 ≤ b → Memory.byte t.mem b = Memory.byte s.mem b) ∧
    ((∀ a, locate s dst .write ≠ .ok (.mem a)) → t.mem = s.mem) ∧
    t.ip = s.ip ∧ t.sp = s.sp ∧ t.flags = s.flags ∧ t.ivec = s.ivec ∧ t.cycles = s.cycles ∧ t.phase = s.phase ∧
    t.cfg = s.cfg ∧
    ((t.runState = s.runState ∧ t.faultRecord = s.faultRecord) ∨ ∃ k, t = raiseFault k s)

/-- 10_state.md R39 (derived by the spec), for `push` and `call`: they write the slot `[sp, sp + 8)`, `sp`, and, for
`call`, `ip`. -/
def Obligations.PushCallFrame : Prop :=
  ∀ (s t : State) (o : Operand) (i : Instr), i = .push o ∨ i = .call o → exec i s = .next t →
    t.regs = s.regs ∧
    (∀ b, b < s.sp.toNat ∨ s.sp.toNat + 8 ≤ b → Memory.byte t.mem b = Memory.byte s.mem b) ∧
    (t.sp = s.sp ∨ t.sp = s.sp + 8) ∧ (i = .push o → t.ip = s.ip) ∧
    t.flags = s.flags ∧ t.ivec = s.ivec ∧ t.cycles = s.cycles ∧ t.phase = s.phase ∧ t.cfg = s.cfg ∧
    ((t.runState = s.runState ∧ t.faultRecord = s.faultRecord) ∨ ∃ k, t = raiseFault k s)

/-- 10_state.md R39 (derived by the spec), for `pop`: it writes `sp` and the destination location; the popped slot is
not cleared. -/
def Obligations.PopFrame : Prop :=
  ∀ (s t : State) (dst : Operand), exec (.pop dst) s = .next t →
    (∀ j : Fin 8, (∀ w, dst = .reg w → w.toNat ≠ j.val) → t.regs[j] = s.regs[j]) ∧
    (∀ a, locate s dst .write = .ok (.mem a) →
      ∀ b, b < a.toNat ∨ a.toNat + 8 ≤ b → Memory.byte t.mem b = Memory.byte s.mem b) ∧
    ((∀ a, locate s dst .write ≠ .ok (.mem a)) → t.mem = s.mem) ∧
    (t.sp = s.sp ∨ t.sp = s.sp - 8) ∧ t.ip = s.ip ∧
    t.flags = s.flags ∧ t.ivec = s.ivec ∧ t.cycles = s.cycles ∧ t.phase = s.phase ∧ t.cfg = s.cfg ∧
    ((t.runState = s.runState ∧ t.faultRecord = s.faultRecord) ∨ ∃ k, t = raiseFault k s)

/-- 10_state.md R39 (derived by the spec), for `nop`, `hlt`, `jmp` and `ret`: no general register and no byte of
memory changes; only `hlt` writes `flags`, and there only `HALT`; only `jmp` and `ret` write `ip`; only `ret` writes
`sp`. -/
def Obligations.NopHltJmpRetFrame : Prop :=
  ∀ (s t : State) (dst : Operand) (i : Instr), i = .nop ∨ i = .hlt ∨ i = .jmp dst ∨ i = .ret → exec i s = .next t →
    t.regs = s.regs ∧ t.mem = s.mem ∧
    (i = .hlt → t.flags = s.flags ||| 1) ∧ (i ≠ .hlt → t.flags = s.flags) ∧
    (i = .nop ∨ i = .hlt → t.ip = s.ip) ∧ (i ≠ .ret → t.sp = s.sp) ∧ (t.sp = s.sp ∨ t.sp = s.sp - 8) ∧
    t.ivec = s.ivec ∧ t.cycles = s.cycles ∧ t.phase = s.phase ∧ t.cfg = s.cfg ∧
    ((t.runState = s.runState ∧ t.faultRecord = s.faultRecord) ∨ ∃ k, t = raiseFault k s)

/-! ### Faults -/

/-- 60_exceptions.md R157 (decisions D20, D21): a raise records the fault with `ip` and `sp`; with no vector installed
the core becomes Faulted and the outcome is `Faulted`, with one installed nothing else is written and the outcome is
`Hooked`. -/
def Obligations.RaiseFaultAppliesVectorPolicy : Prop :=
  ∀ (k : FaultKind) (s : State),
    (s.ivec = 0 →
      raiseOutcome k s =
        (.faulted (some k) s.ip s.sp,
         { s with
           faultRecord := { valid := true, kind := some k, faultIp := s.ip, faultSp := s.sp }
           runState := .faulted })) ∧
    (s.ivec ≠ 0 →
      raiseOutcome k s =
        (.hooked (some k) s.ip s.sp,
         { s with faultRecord := { valid := true, kind := some k, faultIp := s.ip, faultSp := s.sp } })) ∧
    (raiseOutcome k s).2 = raiseFault k s

/-- 20_memory.md R44 and 30_encoding.md R80, R162: a step whose 19-byte record does not lie in memory raises
`MemoryAccessOutOfRange` with `ip` not advanced; only `cycles`, the host phase (log entry 5) and the fault
controller's state change. That the step answers a next state is log entry 2 (DEDUCED). -/
def Obligations.FetchFaultLeavesInstructionPointer : Prop :=
  ∀ s : State, Fetches s → ¬ InRange s s.ip 19 →
    step s = .next (raiseFault .memoryAccessOutOfRange { s with cycles := s.cycles + 1, phase := .started })

/-- 60_exceptions.md R151 and 30_encoding.md R68: a fetched opcode of 0x0A or above raises `InvalidOpcode` after the
`ip` advance, whatever the other bytes are. That the step answers a next state, in which the host phase is started, is
log entries 2 and 5 (DEDUCED). -/
def Obligations.IllegalOpcodeFaultsAfterAdvance : Prop :=
  ∀ s : State, Fetches s → InRange s s.ip 19 → 0x0A ≤ (opcodeByte s).toNat →
    step s = .next (raiseFault .invalidOpcode (handlerState s))

/-- 30_encoding.md R64 (decision D4): under every defined opcode, reserved flag bits that are not 0 raise
`BadOperandFlagCombination` after the `ip` advance and the opcode check. That the step answers a next state, in which
the host phase is started, is log entries 2 and 5 (DEDUCED). -/
def Obligations.ReservedFlagBitsFaultAfterAdvance : Prop :=
  ∀ s : State, Fetches s → InRange s s.ip 19 → (opcodeByte s).toNat < 0x0A → (flagsByte s).extractLsb' 6 2 ≠ 0 →
    step s = .next (raiseFault .badOperandFlagCombination (handlerState s))

/-- 60_exceptions.md R160 (decision D22), R161 (derived by the spec): whatever fault a step raises, the state after it
is the state before it but for `cycles`, the host phase (log entry 5), `ip` (advanced unless the fetch failed),
`fault_record` and, with no vector, `run_state`; the record and the outcome carry the same kind, `ip` and `sp`. -/
def Obligations.FaultingStepIsPrecise : Prop :=
  ∀ (s t : State) (o : StepOutcome), Fetches s → stepAction s = (o, t) → o ≠ .executed →
    ∃ k ip,
      ip = (if InRange s s.ip 19 then s.ip + 19 else s.ip) ∧
      o = (if s.ivec = 0 then .faulted (some k) ip s.sp else .hooked (some k) ip s.sp) ∧
      t = { s with
            cycles := s.cycles + 1
            phase := .started
            ip := ip
            faultRecord := { valid := true, kind := some k, faultIp := ip, faultSp := s.sp }
            runState := if s.ivec = 0 then .faulted else .running }

/-- 60_exceptions.md R152, R153, R154, R155: which faults an instruction can raise of its own, and from what. No
instruction raises `InvalidOpcode`; `nop` and `hlt` raise nothing; `ret` raises `MemoryAccessOutOfRange` alone.
`BadRegisterIndex` comes from an operand it uses whose register index is 8 or more; `BadOperandFlagCombination` from
an operand it uses that has no mode, or is a constant with kind `Write` (30_encoding.md R69); `MemoryAccessOutOfRange`
from an operand it uses whose 8 bytes are out of range, or from the stack slot of `push`, `call`, `pop` or `ret`. -/
def Obligations.FaultKindsByInstruction : Prop :=
  ∀ (i : Instr) (s : State) (k : FaultKind), effect i s = .error k →
    k ≠ .invalidOpcode ∧ i ≠ .nop ∧ i ≠ .hlt ∧
    (i = .ret → k = .memoryAccessOutOfRange) ∧
    (k = .badRegisterIndex → ∃ o a, (o, a) ∈ i.uses ∧ o.indexInRange = false) ∧
    (k = .badOperandFlagCombination →
      ∃ o a, (o, a) ∈ i.uses ∧ (o.hasMode = false ∨ o.notWrittenConst a = false)) ∧
    (k = .memoryAccessOutOfRange →
      (∃ o a, (o, a) ∈ i.uses ∧
        ((∃ w, o = .memAbs w ∧ ¬ InRange s w 8) ∨
          ∃ w, ∃ r : Fin 8, o = .memReg w ∧ w.toNat = r.val ∧ ¬ InRange s s.regs[r] 8)) ∨
      (((∃ o, i = .push o) ∨ ∃ o, i = .call o) ∧ ¬ InRange s s.sp 8) ∨
      (((∃ o, i = .pop o) ∨ i = .ret) ∧ (s.sp.toNat < 8 ∨ s.cfg.memSize.toNat < s.sp.toNat)))

/-- 30_encoding.md R71, R84 and 60_exceptions.md R152, R154: an instruction that is well formed can raise no fault of
its own but `MemoryAccessOutOfRange`; one that is not never completes. Well formed is the model's own notion (log
entry 15, DESIGN CHOICE): each operand it uses has a mode and a register index of 0 to 7, and no written destination
is a constant. -/
def Obligations.WellFormedRaisesOnlyMemoryFault : Prop :=
  ∀ (i : Instr) (s : State),
    (i.wellFormed = true → ∀ k, effect i s = .error k → k = .memoryAccessOutOfRange) ∧
    (i.wellFormed = false → ∃ k, effect i s = .error k)

/-- 60_exceptions.md R159 (decision D21): with a vector installed, a fetch fault changes neither `ip` nor `run_state`,
so every later step faults again: after `n` steps `cycles` is `n` higher, the registers, `sp`, `flags` and memory are
as they were, and `fault_record` (once a step has run) holds the same fault. -/
def Obligations.VectoredFetchFaultRepeats : Prop :=
  ∀ (s : State) (n : Nat), Fetches s → s.ivec ≠ 0 → ¬ InRange s s.ip 19 →
    ∃ t, Host.Core.run core n s = .next t ∧ t.ip = s.ip ∧ t.runState = .running ∧
      t.cycles = s.cycles + BitVec.ofNat 64 n ∧ t.regs = s.regs ∧ t.mem = s.mem ∧ t.sp = s.sp ∧ t.flags = s.flags ∧
      (1 ≤ n → t.faultRecord =
        { valid := true, kind := some .memoryAccessOutOfRange, faultIp := s.ip, faultSp := s.sp })

/-! ### The step -/

/-- 30_encoding.md R81, R83: in a state that is neither faulted nor halted, when the 19 bytes at `ip` lie in memory
and decode to an instruction, the step is that instruction executed in the state with `cycles` counted, `ip` at the
next record and the host phase started (log entry 5). -/
def Obligations.StepRunsDecodedInstruction : Prop :=
  ∀ (s : State) (i : Instr) (rest : List Byte), Fetches s → InRange s s.ip 19 →
    decode (Memory.load s.mem s.ip.toNat 19) = .ok (i, rest) →
    step s = exec i (handlerState s)

/-- 30_encoding.md R81 and 70_reset_and_hazards.md R184: a step in the halted state answers the unchanged state with
outcome `Halted`; a step in the faulted state reports the recorded fault and changes nothing. That `step` answers a
fault there, which carries no state, is log entry 2. -/
def Obligations.HaltedAndFaultedStepsDoNothing : Prop :=
  ∀ s : State,
    (s.runState = .running → s.halted = true → step s = .next s ∧ stepAction s = (.halted, s)) ∧
    (s.runState = .faulted →
      step s = .fault (.terminal s.faultRecord.kind s.faultRecord.faultIp s.faultRecord.faultSp) ∧
      stepAction s = (.faulted s.faultRecord.kind s.faultRecord.faultIp s.faultRecord.faultSp, s))

/-- 30_encoding.md R81 and 60_exceptions.md R156: from every state that is not Faulted a step answers a next state,
and no step refuses. That a step which raises a fault answers a next state is log entry 2, and that a step in the
halted state answers one is log entry 3 (both DEDUCED). -/
def Obligations.StepAnswersNextUnlessFaulted : Prop :=
  ∀ s : State, (s.runState = .running → ∃ t, step s = .next t) ∧ ∀ r, step s ≠ .refused r

/-- 70_reset_and_hazards.md R184: the host's `STEP`, with its named outcome, and the step of the package's interface
are one transition. The split into the two functions is log entry 4, and what the package's step answers in the
Faulted state is log entry 2 (both DEDUCED). -/
def Obligations.StepActionAgreesWithStep : Prop :=
  ∀ s : State,
    (s.runState = .running → step s = .next (stepAction s).2) ∧
    (s.runState = .faulted →
      (stepAction s).2 = s ∧
      ∃ k ip sp, (stepAction s).1 = .faulted k ip sp ∧ step s = .fault (.terminal k ip sp))

/-- 10_state.md R26, R29, 20_memory.md R55 (decision D18): no step changes `ivec`, the capacity or the other
parameters; a step that fetches raises `cycles` by 1 modulo 2^64, completed or faulted, and a halted step does not. -/
def Obligations.StepCountsFetchesAndKeepsParameters : Prop :=
  ∀ s t : State, step s = .next t →
    t.ivec = s.ivec ∧ t.cfg = s.cfg ∧ t.cycles = if s.halted then s.cycles else s.cycles + 1

/-- 10_state.md R25 (decisions D12, D13): no step changes any bit of `flags` but `HALT`, which only a fetched `hlt`
(opcode byte 0x02) sets and nothing clears. -/
def Obligations.OnlyHltWritesFlags : Prop :=
  ∀ s t : State, step s = .next t →
    t.flags = s.flags ∨
    (Fetches s ∧ InRange s s.ip 19 ∧ opcodeByte s = 0x02 ∧ t.flags = s.flags ||| 1)

/-- 10_state.md R24: only `push` and `call` move `sp`, up by 8, and `pop` and `ret`, down by 8. -/
def Obligations.StackPointerMovesOneSlot : Prop :=
  ∀ s t : State, step s = .next t →
    t.sp = s.sp ∨
    (t.sp = s.sp + 8 ∧ (opcodeByte s = 0x06 ∨ opcodeByte s = 0x08)) ∨
    (t.sp = s.sp - 8 ∧ (opcodeByte s = 0x07 ∨ opcodeByte s = 0x09))

/-- 70_reset_and_hazards.md R193 (derived by the spec) and 60_exceptions.md R172: after `hlt` nothing executes: any
number of steps from a halted state leaves it as it is. -/
def Obligations.HaltedCoreStaysAsItIs : Prop :=
  ∀ (n : Nat) (s : State), s.runState = .running → s.halted = true →
    Host.Core.run core n s = .next s ∧ (1 ≤ n → runAction n s = (.halted, s))

/-- 10_state.md R26, R27, R28, R29: `ivec`, `run_state`, `fault_record`, `cycles` and the host phase influence no
instruction's effect, and no instruction changes them: the same instruction from states that differ only there raises
the same fault, or completes with results that differ only there. The host phase is the model's own field (log entry
5, DEDUCED). -/
def Obligations.HiddenStateIsUnobservable : Prop :=
  ∀ (i : Instr) (s : State) (v c : Word) (r : RunState) (f : FaultRecord) (p : HostPhase),
    effect i { s with ivec := v, cycles := c, runState := r, faultRecord := f, phase := p } =
      (effect i s).map fun t => { t with ivec := v, cycles := c, runState := r, faultRecord := f, phase := p }

/-! ### The invariant -/

/-- 10_state.md R31 to R38: the state after RESET meets the invariant, for every value of the parameters. -/
def Obligations.ResetMeetsInvariant : Prop :=
  ∀ c : Config, Inv (State.resetWith c)

/-- 10_state.md R25, R26, R28, 20_memory.md R40, R41 and 60_exceptions.md R158: from every state that meets the
invariant, a step that answers a next state answers one that meets it: memory stays canonical and inside the capacity,
the reserved flag bits stay 0, `ivec` keeps its reset value, the fault record stays consistent, and the faulted state
is an unvectored one that holds the snapshot of its raise. -/
def Obligations.StepKeepsInvariant : Prop :=
  ∀ s t : State, Inv s → step s = .next t → Inv t

/-- 70_reset_and_hazards.md R180 to R182: an accepted LOAD keeps the invariant, and RESET establishes it from any
state. -/
def Obligations.HostActionsKeepInvariant : Prop :=
  (∀ (s t : State) (image : List Byte), Inv s → loadAction image s = .ok t → Inv t) ∧
  (∀ s : State, Inv (resetAction s))

/-! ### The host's actions -/

/-- 70_reset_and_hazards.md R180 (decisions D15, D16, D17, D18, D20): RESET, in any state, sets every piece of state
to its reset value. That it opens the host phase to LOAD is log entry 5, and that it keeps the parameters is log entry
12 (both DEDUCED). -/
def Obligations.ResetSetsEveryValue : Prop :=
  ∀ s : State,
    (∀ i : Fin 8, (resetAction s).regs[i] = 0) ∧ (resetAction s).ip = 0 ∧
    (resetAction s).sp = s.cfg.spReset ∧ (resetAction s).flags = 0 ∧ (resetAction s).ivec = s.cfg.ivecReset ∧
    (resetAction s).runState = .running ∧
    (resetAction s).faultRecord = { valid := false, kind := none, faultIp := 0, faultSp := 0 } ∧
    (resetAction s).cycles = 0 ∧ (∀ a, Memory.byte (resetAction s).mem a = 0) ∧
    (resetAction s).cfg = s.cfg ∧ (resetAction s).phase = .afterReset

/-- 70_reset_and_hazards.md R182, R183 (decision D30): LOAD is accepted exactly right after RESET and for 1 to
`MEM_SIZE` bytes, and refused otherwise; it copies the image to address 0, leaves every later byte and every register;
a second one, and one after a step has fetched, is refused. Whether RESET was the last action is read from the host
phase, log entry 5 (DEDUCED). -/
def Obligations.LoadCopiesImageOnce : Prop :=
  ∀ (s : State) (image : List Byte),
    (s.phase = .afterReset ∧ 1 ≤ image.length ∧ image.length ≤ s.cfg.memSize.toNat →
      ∃ t, loadAction image s = .ok t ∧
        t = { s with mem := t.mem, phase := .loaded } ∧
        (∀ (k : Nat) (h : k < image.length), Memory.byte t.mem k = image[k]) ∧
        (∀ a, image.length ≤ a → Memory.byte t.mem a = Memory.byte s.mem a) ∧
        (∀ again, loadAction again t = .error .loadError)) ∧
    (¬ (s.phase = .afterReset ∧ 1 ≤ image.length ∧ image.length ≤ s.cfg.memSize.toNat) →
      loadAction image s = .error .loadError) ∧
    (Fetches s → ∀ t, step s = .next t → loadAction image t = .error .loadError)

/-- 70_reset_and_hazards.md R185, R188 (decisions D29, D34): RUN performs STEP: with no budget it makes no step and
returns `BudgetExhausted`; with a budget left it performs one, stops with that step's outcome and state at `Halted`
and `Faulted`, and goes on with one less at `Executed` and `Hooked`. So a run that exhausts its budget goes on where
it stopped, a run that has ended stays ended, and the reported ending is the one the state shows. -/
def Obligations.RunBudgetsAddUp : Prop :=
  (∀ (n : Nat) (s t : State),
    runAction 0 s = (.budgetExhausted, s) ∧
    (stepAction s = (.halted, t) → runAction (n + 1) s = (.halted, t)) ∧
    (∀ k ip sp, stepAction s = (.faulted k ip sp, t) → runAction (n + 1) s = (.faulted k ip sp, t)) ∧
    (stepAction s = (.executed, t) → runAction (n + 1) s = runAction n t) ∧
    (∀ k ip sp, stepAction s = (.hooked k ip sp, t) → runAction (n + 1) s = runAction n t)) ∧
  ∀ (m n : Nat) (s t : State) (o : RunOutcome), runAction m s = (o, t) →
    (o = .budgetExhausted → runAction (m + n) s = runAction n t) ∧
    (o ≠ .budgetExhausted → runAction (m + n) s = (o, t)) ∧
    (o = .halted → t.halted = true) ∧
    (∀ k ip sp, o = .faulted k ip sp →
      t.runState = .faulted ∧ t.faultRecord.kind = k ∧ t.faultRecord.faultIp = ip ∧ t.faultRecord.faultSp = sp)

/-- 70_reset_and_hazards.md R186 (decision D29): OBSERVE returns a copy of every piece of state, memory byte by byte
over the whole capacity. -/
def Obligations.ObserveCopiesEveryPiece : Prop :=
  ∀ s : State,
    (observe s).regs = s.regs ∧ (observe s).ip = s.ip ∧ (observe s).sp = s.sp ∧ (observe s).flags = s.flags ∧
    (observe s).ivec = s.ivec ∧ (observe s).runState = s.runState ∧ (observe s).faultRecord = s.faultRecord ∧
    (observe s).cycles = s.cycles ∧ (observe s).bytes.length = s.cfg.memSize.toNat ∧
    (∀ a, a < s.cfg.memSize.toNat → (observe s).bytes[a]? = some (Memory.byte s.mem a))

/-! ### Instructions together -/

/-- 44_stack.md R126, the property S3 of 95_test_vectors.md: a push that completes, followed by a pop into a register,
returns the pushed value and restores `sp`; the other registers are as before. -/
def Obligations.PushThenPopRestores : Prop :=
  ∀ (s t : State) (src : Operand) (a : Location) (w : Word) (i : Fin 8),
    locate s src .read = .ok a → InRange s s.sp 8 → w.toNat = i.val → exec (.push src) s = .next t →
    ∃ u, exec (.pop (.reg w)) t = .next u ∧ u.regs = s.regs.set i (readLoc s a) ∧ u.sp = s.sp ∧ u.mem = t.mem

/-- 45_call_return.md R135, the property S4 of 95_test_vectors.md: after a call that completes, a return with the same
`sp` and memory, wherever `ip` has gone, resumes at the record after the call with `sp` restored. -/
def Obligations.CallThenReturnResumes : Prop :=
  ∀ (s t : State) (dst : Operand) (a : Location) (elsewhere : Word),
    InRange s s.sp 8 → locate s dst .read = .ok a → exec (.call dst) s = .next t →
    ∃ u, exec .ret { t with ip := elsewhere } = .next u ∧ u.ip = s.ip ∧ u.sp = s.sp ∧ u.regs = s.regs ∧ u.mem = t.mem

/-- 20_memory.md R53 and 70_reset_and_hazards.md R192 (decision D25): a record stored at `ip` before a step is the one
the step executes, in the state with `cycles` counted, `ip` at the next record and the host phase started (log entry
5, DEDUCED). -/
def Obligations.StoredRecordIsExecuted : Prop :=
  ∀ (s : State) (i : Instr), Fetches s → InRange s s.ip 19 →
    step { s with mem := Memory.store s.mem s.ip.toNat (encode i) } =
      exec i (handlerState { s with mem := Memory.store s.mem s.ip.toNat (encode i) })

/-- 30_encoding.md R83 and 41_basic.md R101: a `mov` whose destination is its own record executes as decoded and
leaves the new bytes in memory: the store that overwrites the record at `ip` takes place in the step of that record.
-/
def Obligations.SelfOverwritingMovRunsAsDecoded : Prop :=
  ∀ (s : State) (v : Word) (rest : List Byte), Fetches s → InRange s s.ip 19 →
    decode (Memory.load s.mem s.ip.toNat 19) = .ok (.mov (.memAbs s.ip) (.const v), rest) →
    ∃ t, step s = .next t ∧ memRead t s.ip .w8 = .ok v ∧ t.ip = s.ip + 19 ∧
      ∀ b, b < s.ip.toNat ∨ s.ip.toNat + 8 ≤ b → Memory.byte t.mem b = Memory.byte s.mem b
end

