-- ==== Sys2Proof/Laws/Codec.lean ====
section
/-! SUPPORT. Small laws of the record: its operands, its reserved bits and its length. -/

namespace Sys2Proof

/-- The destination of a record is the operand whose flags and word were put there, whatever the source's flags. -/
theorem dst_of_fields {r : Record} (d s : Operand) (hf : r.flags = d.dstFlags ||| s.srcFlags) (hw : r.op1 = d.word) :
    r.dst = d := by
  unfold Record.dst
  rw [hf, hw]
  cases d <;> cases s <;> simp [selectMode, Operand.dstFlags, Operand.srcFlags, Operand.word]

/-- The source of a record, in the same way. -/
theorem src_of_fields {r : Record} (d s : Operand) (hf : r.flags = d.dstFlags ||| s.srcFlags) (hw : r.op2 = s.word) :
    r.src = s := by
  unfold Record.src
  rw [hf, hw]
  cases d <;> cases s <;> simp [selectMode, Operand.dstFlags, Operand.srcFlags, Operand.word]

@[simp] theorem record_dst (i : Instr) : i.record.dst = i.dstOperand := dst_of_fields _ i.srcOperand rfl rfl

@[simp] theorem record_src (i : Instr) : i.record.src = i.srcOperand := src_of_fields i.dstOperand _ rfl rfl

@[simp] theorem record_opcode (i : Instr) : i.record.opcode = i.opcode := rfl

/-- The canonical record leaves the reserved flag bits 0 (R85). -/
@[simp] theorem record_reservedFlags (i : Instr) : i.record.reservedFlags = 0 := by
  have h : ∀ d s : Operand, (d.dstFlags ||| s.srcFlags).extractLsb' 6 2 = 0 := by
    intro d s
    cases d <;> cases s <;> simp [Operand.dstFlags, Operand.srcFlags]
  exact h _ _

@[simp] theorem length_toBytes (r : Record) : r.toBytes.length = recordSize := by
  simp [Record.toBytes, recordSize]

@[simp] theorem length_encode (i : Instr) : (encode i).length = recordSize := length_toBytes _

@[simp] theorem length_tableWordBytes (nbits w : Nat) : (tableWordBytes nbits w).length = recordSize := by
  simp [tableWordBytes]

/-- The two nibbles of byte 2 put together are the byte (R61). -/
theorem nibbles_append (b : Byte) : b.extractLsb' 4 4 ++ b.extractLsb' 0 4 = b := by
  revert b
  decide

/-- The opcode of the instruction a record selects is the record's (R67). -/
theorem opcode_of_instr {r : Record} {i : Instr} (h : r.instr? = some i) : i.opcode = r.opcode := by
  apply BitVec.eq_of_toNat_eq
  unfold Record.instr? at h
  split at h
  case h_11 => cases h
  all_goals
    rename_i ho
    cases h
    exact ho.symm

/-- An opcode below 0x0A selects an instruction of that opcode (R67). -/
theorem instr_of_defined_opcode {r : Record} (h : r.opcode.toNat < 0x0A) :
    ∃ i, r.instr? = some i ∧ i.opcode = r.opcode := by
  have hsome : r.instr? ≠ none := by
    have hcases : r.opcode.toNat = 0 ∨ r.opcode.toNat = 1 ∨ r.opcode.toNat = 2 ∨ r.opcode.toNat = 3 ∨
        r.opcode.toNat = 4 ∨ r.opcode.toNat = 5 ∨ r.opcode.toNat = 6 ∨ r.opcode.toNat = 7 ∨ r.opcode.toNat = 8 ∨
        r.opcode.toNat = 9 := by omega
    rcases hcases with h | h | h | h | h | h | h | h | h | h <;> simp [Record.instr?, h]
  obtain ⟨i, hi⟩ := Option.ne_none_iff_exists'.mp hsome
  exact ⟨i, hi, opcode_of_instr hi⟩

/-- An opcode of 0x0A or above selects none (R68). -/
theorem instr_of_illegal_opcode {r : Record} (h : 0x0A ≤ r.opcode.toNat) : r.instr? = none := by
  cases hi : r.instr? with
  | none => rfl
  | some i =>
    unfold Record.instr? at hi
    split at hi
    case h_11 => exact hi.symm
    all_goals omega

/-- A decoded instruction has the opcode of its record. -/
theorem opcode_of_decodeRecord {r : Record} {i : Instr} (h : decodeRecord r = .ok i) : i.opcode = r.opcode := by
  by_cases ho : r.opcode.toNat < 0x0A
  · obtain ⟨j, hj, hop⟩ := instr_of_defined_opcode ho
    simp only [decodeRecord, hj] at h
    split at h
    · cases h; exact hop
    · cases h
  · simp [decodeRecord, instr_of_illegal_opcode (Nat.le_of_not_lt ho)] at h

end Sys2Proof
end

