-- ==== Sys2Proof/Laws/Memory.lean ====
section
/-! SUPPORT. The laws of memory: reading after writing, what a write leaves alone, and that every operation keeps the
canonical form and stays below the capacity. -/

namespace Sys2Proof.Machine

open Sys2Proof

/-! ### One byte -/

@[simp] theorem byte_nil (a : Nat) : Memory.byte [] a = unlistedByte := rfl

theorem byte_eraseAt_same (m : Memory) (a : Nat) : Memory.byte (Memory.eraseAt m a) a = unlistedByte := by
  induction m with
  | nil => rfl
  | cons c rest ih =>
    obtain ⟨b, v⟩ := c
    by_cases h : b = a <;> simp [Memory.eraseAt, Memory.byte, h, ih]

theorem byte_eraseAt_other (m : Memory) {a b : Nat} (h : b ≠ a) :
    Memory.byte (Memory.eraseAt m a) b = Memory.byte m b := by
  induction m with
  | nil => rfl
  | cons c rest ih =>
    obtain ⟨d, v⟩ := c
    by_cases hd : d = a
    · have : d ≠ b := by omega
      simp [Memory.eraseAt, Memory.byte, hd, ih, Ne.symm h]
    · simp [Memory.eraseAt, Memory.byte, hd, ih]

/-- Nothing is listed at `a`. -/
def Memory.absentAt (m : Memory) (a : Nat) : Prop := ∀ c ∈ m, c.1 ≠ a

theorem absentAt_eraseAt (m : Memory) (a : Nat) : Memory.absentAt (Memory.eraseAt m a) a := by
  induction m with
  | nil => simp [Memory.absentAt, Memory.eraseAt]
  | cons c rest ih =>
    obtain ⟨b, v⟩ := c
    by_cases h : b = a
    · simpa [Memory.eraseAt, h] using ih
    · simp only [Memory.absentAt, Memory.eraseAt, h, if_false, List.mem_cons, forall_eq_or_imp]
      exact ⟨h, ih⟩

theorem byte_insertAt_same (m : Memory) (a : Nat) (v : Byte) (h : Memory.absentAt m a) :
    Memory.byte (Memory.insertAt m a v) a = v := by
  induction m with
  | nil => simp [Memory.insertAt, Memory.byte]
  | cons c rest ih =>
    obtain ⟨b, w⟩ := c
    have hb : b ≠ a := h (b, w) (by simp)
    have hr : Memory.absentAt rest a := fun c hc => h c (by simp [hc])
    by_cases hab : a < b <;> simp [Memory.insertAt, Memory.byte, hab, hb, ih hr]

theorem byte_insertAt_other (m : Memory) {a b : Nat} (v : Byte) (h : b ≠ a) :
    Memory.byte (Memory.insertAt m a v) b = Memory.byte m b := by
  induction m with
  | nil => simp [Memory.insertAt, Memory.byte, Ne.symm h]
  | cons c rest ih =>
    obtain ⟨d, w⟩ := c
    by_cases had : a < d <;> simp [Memory.insertAt, Memory.byte, had, ih, Ne.symm h]

/-- Reading the byte just written gives it. -/
@[simp] theorem byte_setByte_same (m : Memory) (a : Nat) (v : Byte) : Memory.byte (Memory.setByte m a v) a = v := by
  unfold Memory.setByte
  split
  · simp [byte_eraseAt_same, *]
  · exact byte_insertAt_same _ _ _ (absentAt_eraseAt m a)

/-- A byte write leaves every other byte alone. -/
theorem byte_setByte_other (m : Memory) {a b : Nat} (v : Byte) (h : b ≠ a) :
    Memory.byte (Memory.setByte m a v) b = Memory.byte m b := by
  unfold Memory.setByte
  split
  · exact byte_eraseAt_other m h
  · rw [byte_insertAt_other _ v h, byte_eraseAt_other m h]

/-! ### Several bytes -/

@[simp] theorem length_load (m : Memory) (a n : Nat) : (Memory.load m a n).length = n := by
  induction n generalizing a with
  | zero => rfl
  | succ n ih => simp [Memory.load, ih]

theorem getElem_load (m : Memory) (a n k : Nat) (h : k < (Memory.load m a n).length) :
    (Memory.load m a n)[k] = Memory.byte m (a + k) := by
  induction n generalizing a k with
  | zero => simp at h
  | succ n ih =>
    cases k with
    | zero => simp [Memory.load]
    | succ k =>
      simp only [Memory.load, List.getElem_cons_succ]
      rw [ih]
      congr 1
      omega

/-- Two loads agree when every byte they read does. -/
theorem load_congr {m m' : Memory} {a n : Nat} (h : ∀ b, a ≤ b → b < a + n → Memory.byte m b = Memory.byte m' b) :
    Memory.load m a n = Memory.load m' a n := by
  induction n generalizing a with
  | zero => rfl
  | succ n ih =>
    simp only [Memory.load]
    rw [h a (by omega) (by omega), ih fun b hb hb' => h b (by omega) (by omega)]

/-- A load is the concatenation of its parts. -/
theorem load_add (m : Memory) (a j n : Nat) :
    Memory.load m a (j + n) = Memory.load m a j ++ Memory.load m (a + j) n := by
  induction j generalizing a with
  | zero => simp [Memory.load]
  | succ j ih =>
    have h1 : j + 1 + n = (j + n) + 1 := by omega
    have h2 : a + (j + 1) = a + 1 + j := by omega
    rw [h1, h2]
    simp [Memory.load, ih]

/-- A store leaves every byte outside its range alone. -/
theorem byte_store_outside (m : Memory) (a : Nat) (bs : List Byte) (b : Nat) (h : b < a ∨ a + bs.length ≤ b) :
    Memory.byte (Memory.store m a bs) b = Memory.byte m b := by
  induction bs generalizing m a with
  | nil => rfl
  | cons c bs ih =>
    simp only [List.length_cons] at h
    rw [Memory.store, ih _ _ (by omega), byte_setByte_other _ _ (by omega)]

/-- Each byte in its range reads as the byte stored there. -/
theorem byte_store_inside (m : Memory) (a : Nat) (bs : List Byte) (k : Nat) (h : k < bs.length) :
    Memory.byte (Memory.store m a bs) (a + k) = bs[k] := by
  induction bs generalizing m a k with
  | nil => simp at h
  | cons c bs ih =>
    cases k with
    | zero => rw [Memory.store, Nat.add_zero, byte_store_outside _ _ _ _ (by omega)]; simp
    | succ k =>
      have h' : a + (k + 1) = a + 1 + k := by omega
      rw [Memory.store, h', ih _ _ _ (by simpa using h)]
      simp

/-- Loading the range just stored gives the bytes stored. -/
@[simp] theorem load_store_same (m : Memory) (a : Nat) (bs : List Byte) :
    Memory.load (Memory.store m a bs) a bs.length = bs := by
  apply List.ext_getElem
  · simp
  · intro k h1 h2
    rw [getElem_load, byte_store_inside _ _ _ _ h2]

/-- A load outside the range just stored is unchanged. -/
theorem load_store_outside (m : Memory) (a : Nat) (bs : List Byte) (b n : Nat)
    (h : b + n ≤ a ∨ a + bs.length ≤ b) : Memory.load (Memory.store m a bs) b n = Memory.load m b n :=
  load_congr fun c hc hc' => byte_store_outside m a bs c (by omega)

/-! ### The canonical form -/

theorem canonicalFrom_mono {lo lo' : Nat} (h : lo' ≤ lo) (m : Memory) (hm : Memory.canonicalFrom lo m = true) :
    Memory.canonicalFrom lo' m = true := by
  cases m with
  | nil => rfl
  | cons c rest =>
    obtain ⟨a, v⟩ := c
    simp only [Memory.canonicalFrom, Bool.and_eq_true, decide_eq_true_eq] at hm ⊢
    exact ⟨⟨by omega, hm.1.2⟩, hm.2⟩

theorem canonicalFrom_eraseAt {lo : Nat} (m : Memory) (a : Nat) (hm : Memory.canonicalFrom lo m = true) :
    Memory.canonicalFrom lo (Memory.eraseAt m a) = true := by
  induction m generalizing lo with
  | nil => rfl
  | cons c rest ih =>
    obtain ⟨b, v⟩ := c
    simp only [Memory.canonicalFrom, Bool.and_eq_true, decide_eq_true_eq] at hm
    by_cases h : b = a
    · simp only [Memory.eraseAt, h, if_true]
      exact canonicalFrom_mono (by omega) _ (ih hm.2)
    · simp only [Memory.eraseAt, h, if_false, Memory.canonicalFrom, Bool.and_eq_true, decide_eq_true_eq]
      exact ⟨hm.1, ih hm.2⟩

theorem canonicalFrom_insertAt {lo : Nat} (m : Memory) (a : Nat) (v : Byte) (hv : v ≠ unlistedByte) (hlo : lo ≤ a)
    (ha : Memory.absentAt m a) (hm : Memory.canonicalFrom lo m = true) :
    Memory.canonicalFrom lo (Memory.insertAt m a v) = true := by
  induction m generalizing lo with
  | nil => simp [Memory.insertAt, Memory.canonicalFrom, hv, hlo]
  | cons c rest ih =>
    obtain ⟨b, w⟩ := c
    have hb : b ≠ a := ha (b, w) (by simp)
    have hr : Memory.absentAt rest a := fun c hc => ha c (by simp [hc])
    simp only [Memory.canonicalFrom, Bool.and_eq_true, decide_eq_true_eq] at hm
    by_cases h : a < b
    · have : a + 1 ≤ b := h
      simp [Memory.insertAt, h, Memory.canonicalFrom, hv, hlo, hm.1.2, hm.2, this]
    · simp only [Memory.insertAt, h, if_false, Memory.canonicalFrom, Bool.and_eq_true, decide_eq_true_eq]
      exact ⟨hm.1, ih (by omega) hr hm.2⟩

/-- A byte write keeps the canonical form. -/
theorem setByte_wf {m : Memory} (a : Nat) (v : Byte) (hm : m.wf = true) : (Memory.setByte m a v).wf = true := by
  unfold Memory.setByte
  split
  · exact canonicalFrom_eraseAt m a hm
  · exact canonicalFrom_insertAt _ a v ‹_› (Nat.zero_le a) (absentAt_eraseAt m a) (canonicalFrom_eraseAt m a hm)

/-- A store keeps the canonical form. -/
theorem store_wf {m : Memory} (a : Nat) (bs : List Byte) (hm : m.wf = true) : (Memory.store m a bs).wf = true := by
  induction bs generalizing m a with
  | nil => exact hm
  | cons b bs ih => exact ih _ (setByte_wf a b hm)

/-! ### Canonical memories are equal when they read the same -/

theorem byte_below_canonical {lo : Nat} (m : Memory) (hm : Memory.canonicalFrom lo m = true) {a : Nat} (h : a < lo) :
    Memory.byte m a = unlistedByte := by
  induction m generalizing lo with
  | nil => rfl
  | cons c rest ih =>
    obtain ⟨b, v⟩ := c
    simp only [Memory.canonicalFrom, Bool.and_eq_true, decide_eq_true_eq] at hm
    have hb : b ≠ a := by omega
    simp only [Memory.byte, hb, if_false]
    exact ih hm.2 (by omega)

/-- Two canonical memories that read the same at every address are the same list. -/
theorem canonical_ext {lo : Nat} (m m' : Memory) (hm : Memory.canonicalFrom lo m = true)
    (hm' : Memory.canonicalFrom lo m' = true) (h : ∀ a, Memory.byte m a = Memory.byte m' a) : m = m' := by
  induction m generalizing lo m' with
  | nil =>
    cases m' with
    | nil => rfl
    | cons c rest =>
      obtain ⟨b, v⟩ := c
      have hb := h b
      simp [Memory.canonicalFrom] at hm'
      simp [Memory.byte] at hb
      exact absurd hb.symm hm'.1.2
  | cons c rest ih =>
    obtain ⟨b, v⟩ := c
    simp only [Memory.canonicalFrom, Bool.and_eq_true, decide_eq_true_eq, bne_iff_ne] at hm
    cases m' with
    | nil =>
      have hb := h b
      simp [Memory.byte] at hb
      exact absurd hb hm.1.2
    | cons c' rest' =>
      obtain ⟨b', v'⟩ := c'
      simp only [Memory.canonicalFrom, Bool.and_eq_true, decide_eq_true_eq, bne_iff_ne] at hm'
      have hbb : b = b' := by
        rcases Nat.lt_trichotomy b b' with hlt | heq | hgt
        · have h1 := h b
          have h2 : Memory.byte rest' b = unlistedByte := byte_below_canonical rest' hm'.2 (by omega)
          have hne : b' ≠ b := by omega
          simp only [Memory.byte, hne, if_true, if_false, h2] at h1
          exact absurd h1 hm.1.2
        · exact heq
        · have h1 := h b'
          have h2 : Memory.byte rest b' = unlistedByte := byte_below_canonical rest hm.2 (by omega)
          have hne : b ≠ b' := by omega
          simp only [Memory.byte, hne, if_true, if_false, h2] at h1
          exact absurd h1.symm hm'.1.2
      subst hbb
      have hv : v = v' := by simpa [Memory.byte] using h b
      subst hv
      congr 1
      refine ih rest' hm.2 hm'.2 fun a => ?_
      by_cases hab : b = a
      · subst hab
        rw [byte_below_canonical rest hm.2 (by omega), byte_below_canonical rest' hm'.2 (by omega)]
      · simpa [Memory.byte, hab] using h a

/-! ### Staying below a bound -/

theorem mem_setByte {m : Memory} {a : Nat} {v : Byte} {c : Host.Cell} (h : c ∈ Memory.setByte m a v) :
    c ∈ m ∨ c.1 = a := by
  have hErase : ∀ m : Memory, ∀ c, c ∈ Memory.eraseAt m a → c ∈ m := by
    intro m
    induction m with
    | nil => intro c hc; simp [Memory.eraseAt] at hc
    | cons d rest ih =>
      obtain ⟨b, w⟩ := d
      intro c hc
      by_cases hb : b = a
      · rw [Memory.eraseAt, if_pos hb] at hc
        exact List.mem_cons_of_mem _ (ih c hc)
      · rw [Memory.eraseAt, if_neg hb, List.mem_cons] at hc
        rcases hc with rfl | hc
        · exact List.mem_cons_self
        · exact List.mem_cons_of_mem _ (ih c hc)
  have hInsert : ∀ m : Memory, ∀ c, c ∈ Memory.insertAt m a v → c ∈ m ∨ c = (a, v) := by
    intro m
    induction m with
    | nil => intro c hc; right; simpa [Memory.insertAt] using hc
    | cons d rest ih =>
      obtain ⟨b, w⟩ := d
      intro c hc
      by_cases hb : a < b
      · rw [Memory.insertAt, if_pos hb, List.mem_cons] at hc
        rcases hc with rfl | hc
        · exact Or.inr rfl
        · exact Or.inl hc
      · rw [Memory.insertAt, if_neg hb, List.mem_cons] at hc
        rcases hc with rfl | hc
        · exact Or.inl List.mem_cons_self
        · rcases ih c hc with h | h
          · exact Or.inl (List.mem_cons_of_mem _ h)
          · exact Or.inr h
  unfold Memory.setByte at h
  split at h
  · exact Or.inl (hErase m c h)
  · rcases hInsert _ c h with h | h
    · exact Or.inl (hErase m c h)
    · exact Or.inr (by rw [h])

/-- A store lists no address outside the old ones and its own range. -/
theorem mem_store {m : Memory} {a : Nat} {bs : List Byte} {c : Host.Cell} (h : c ∈ Memory.store m a bs) :
    c ∈ m ∨ (a ≤ c.1 ∧ c.1 < a + bs.length) := by
  induction bs generalizing m a with
  | nil => exact Or.inl h
  | cons b bs ih =>
    rcases ih h with h | h
    · rcases mem_setByte h with h | h
      · exact Or.inl h
      · exact Or.inr (by simp only [List.length_cons]; omega)
    · exact Or.inr (by simp only [List.length_cons]; omega)

end Sys2Proof.Machine
end

