-- ==== Sys2Proof/Laws/State.lean ====
section
/-! SUPPORT. One lemma per field for every update of State, so that no later proof unfolds a record update. -/

namespace Sys2Proof.Machine

open Sys2Proof

/-! ### `hlt` (R102) -/

@[simp] theorem setHalt_regs (s : State) : s.setHalt.regs = s.regs := rfl
@[simp] theorem setHalt_ip (s : State) : s.setHalt.ip = s.ip := rfl
@[simp] theorem setHalt_sp (s : State) : s.setHalt.sp = s.sp := rfl
@[simp] theorem setHalt_flags (s : State) : s.setHalt.flags = s.flags ||| haltMask := rfl
@[simp] theorem setHalt_ivec (s : State) : s.setHalt.ivec = s.ivec := rfl
@[simp] theorem setHalt_runState (s : State) : s.setHalt.runState = s.runState := rfl
@[simp] theorem setHalt_faultRecord (s : State) : s.setHalt.faultRecord = s.faultRecord := rfl
@[simp] theorem setHalt_cycles (s : State) : s.setHalt.cycles = s.cycles := rfl
@[simp] theorem setHalt_mem (s : State) : s.setHalt.mem = s.mem := rfl
@[simp] theorem setHalt_phase (s : State) : s.setHalt.phase = s.phase := rfl
@[simp] theorem setHalt_cfg (s : State) : s.setHalt.cfg = s.cfg := rfl

/-! ### A write of `ip` -/

@[simp] theorem writeIp_regs (s : State) (v : Word) : (s.writeReg .ip v).regs = s.regs := rfl
@[simp] theorem writeIp_ip (s : State) (v : Word) : (s.writeReg .ip v).ip = v := rfl
@[simp] theorem writeIp_sp (s : State) (v : Word) : (s.writeReg .ip v).sp = s.sp := rfl
@[simp] theorem writeIp_flags (s : State) (v : Word) : (s.writeReg .ip v).flags = s.flags := rfl
@[simp] theorem writeIp_ivec (s : State) (v : Word) : (s.writeReg .ip v).ivec = s.ivec := rfl
@[simp] theorem writeIp_runState (s : State) (v : Word) : (s.writeReg .ip v).runState = s.runState := rfl
@[simp] theorem writeIp_faultRecord (s : State) (v : Word) : (s.writeReg .ip v).faultRecord = s.faultRecord := rfl
@[simp] theorem writeIp_cycles (s : State) (v : Word) : (s.writeReg .ip v).cycles = s.cycles := rfl
@[simp] theorem writeIp_mem (s : State) (v : Word) : (s.writeReg .ip v).mem = s.mem := rfl
@[simp] theorem writeIp_phase (s : State) (v : Word) : (s.writeReg .ip v).phase = s.phase := rfl
@[simp] theorem writeIp_cfg (s : State) (v : Word) : (s.writeReg .ip v).cfg = s.cfg := rfl

/-! ### A write of `sp` -/

@[simp] theorem writeSp_regs (s : State) (v : Word) : (s.writeReg .sp v).regs = s.regs := rfl
@[simp] theorem writeSp_ip (s : State) (v : Word) : (s.writeReg .sp v).ip = s.ip := rfl
@[simp] theorem writeSp_sp (s : State) (v : Word) : (s.writeReg .sp v).sp = v := rfl
@[simp] theorem writeSp_flags (s : State) (v : Word) : (s.writeReg .sp v).flags = s.flags := rfl
@[simp] theorem writeSp_ivec (s : State) (v : Word) : (s.writeReg .sp v).ivec = s.ivec := rfl
@[simp] theorem writeSp_runState (s : State) (v : Word) : (s.writeReg .sp v).runState = s.runState := rfl
@[simp] theorem writeSp_faultRecord (s : State) (v : Word) : (s.writeReg .sp v).faultRecord = s.faultRecord := rfl
@[simp] theorem writeSp_cycles (s : State) (v : Word) : (s.writeReg .sp v).cycles = s.cycles := rfl
@[simp] theorem writeSp_mem (s : State) (v : Word) : (s.writeReg .sp v).mem = s.mem := rfl
@[simp] theorem writeSp_phase (s : State) (v : Word) : (s.writeReg .sp v).phase = s.phase := rfl
@[simp] theorem writeSp_cfg (s : State) (v : Word) : (s.writeReg .sp v).cfg = s.cfg := rfl

/-! ### A write of a general register -/

@[simp] theorem writeGeneral_regs (s : State) (i : Fin 8) (v : Word) : (s.writeReg (.general i) v).regs = s.regs.set i v := rfl
@[simp] theorem writeGeneral_ip (s : State) (i : Fin 8) (v : Word) : (s.writeReg (.general i) v).ip = s.ip := rfl
@[simp] theorem writeGeneral_sp (s : State) (i : Fin 8) (v : Word) : (s.writeReg (.general i) v).sp = s.sp := rfl
@[simp] theorem writeGeneral_flags (s : State) (i : Fin 8) (v : Word) : (s.writeReg (.general i) v).flags = s.flags := rfl
@[simp] theorem writeGeneral_ivec (s : State) (i : Fin 8) (v : Word) : (s.writeReg (.general i) v).ivec = s.ivec := rfl
@[simp] theorem writeGeneral_runState (s : State) (i : Fin 8) (v : Word) : (s.writeReg (.general i) v).runState = s.runState := rfl
@[simp] theorem writeGeneral_faultRecord (s : State) (i : Fin 8) (v : Word) : (s.writeReg (.general i) v).faultRecord = s.faultRecord := rfl
@[simp] theorem writeGeneral_cycles (s : State) (i : Fin 8) (v : Word) : (s.writeReg (.general i) v).cycles = s.cycles := rfl
@[simp] theorem writeGeneral_mem (s : State) (i : Fin 8) (v : Word) : (s.writeReg (.general i) v).mem = s.mem := rfl
@[simp] theorem writeGeneral_phase (s : State) (i : Fin 8) (v : Word) : (s.writeReg (.general i) v).phase = s.phase := rfl
@[simp] theorem writeGeneral_cfg (s : State) (i : Fin 8) (v : Word) : (s.writeReg (.general i) v).cfg = s.cfg := rfl

/-! ### A memory write -/

@[simp] theorem writeMem_regs (s : State) (a : Word) (n : Width) (v : Word) : (writeMem s a n v).regs = s.regs := rfl
@[simp] theorem writeMem_ip (s : State) (a : Word) (n : Width) (v : Word) : (writeMem s a n v).ip = s.ip := rfl
@[simp] theorem writeMem_sp (s : State) (a : Word) (n : Width) (v : Word) : (writeMem s a n v).sp = s.sp := rfl
@[simp] theorem writeMem_flags (s : State) (a : Word) (n : Width) (v : Word) : (writeMem s a n v).flags = s.flags := rfl
@[simp] theorem writeMem_ivec (s : State) (a : Word) (n : Width) (v : Word) : (writeMem s a n v).ivec = s.ivec := rfl
@[simp] theorem writeMem_runState (s : State) (a : Word) (n : Width) (v : Word) : (writeMem s a n v).runState = s.runState := rfl
@[simp] theorem writeMem_faultRecord (s : State) (a : Word) (n : Width) (v : Word) : (writeMem s a n v).faultRecord = s.faultRecord := rfl
@[simp] theorem writeMem_cycles (s : State) (a : Word) (n : Width) (v : Word) : (writeMem s a n v).cycles = s.cycles := rfl
@[simp] theorem writeMem_mem (s : State) (a : Word) (n : Width) (v : Word) : (writeMem s a n v).mem = Memory.store s.mem a.toNat (leBytes n.bytes v.toNat) := rfl
@[simp] theorem writeMem_phase (s : State) (a : Word) (n : Width) (v : Word) : (writeMem s a n v).phase = s.phase := rfl
@[simp] theorem writeMem_cfg (s : State) (a : Word) (n : Width) (v : Word) : (writeMem s a n v).cfg = s.cfg := rfl

/-! ### The push of a word -/

@[simp] theorem pushWord_regs (s : State) (v : Word) : (pushWord s v).regs = s.regs := rfl
@[simp] theorem pushWord_ip (s : State) (v : Word) : (pushWord s v).ip = s.ip := rfl
@[simp] theorem pushWord_sp (s : State) (v : Word) : (pushWord s v).sp = s.sp + 8 := rfl
@[simp] theorem pushWord_flags (s : State) (v : Word) : (pushWord s v).flags = s.flags := rfl
@[simp] theorem pushWord_ivec (s : State) (v : Word) : (pushWord s v).ivec = s.ivec := rfl
@[simp] theorem pushWord_runState (s : State) (v : Word) : (pushWord s v).runState = s.runState := rfl
@[simp] theorem pushWord_faultRecord (s : State) (v : Word) : (pushWord s v).faultRecord = s.faultRecord := rfl
@[simp] theorem pushWord_cycles (s : State) (v : Word) : (pushWord s v).cycles = s.cycles := rfl
@[simp] theorem pushWord_mem (s : State) (v : Word) : (pushWord s v).mem = Memory.store s.mem s.sp.toNat (leBytes 8 v.toNat) := rfl
@[simp] theorem pushWord_phase (s : State) (v : Word) : (pushWord s v).phase = s.phase := rfl
@[simp] theorem pushWord_cfg (s : State) (v : Word) : (pushWord s v).cfg = s.cfg := rfl

/-! ### The start of a fetching step -/

@[simp] theorem beginStep_regs (s : State) : (beginStep s).regs = s.regs := rfl
@[simp] theorem beginStep_ip (s : State) : (beginStep s).ip = s.ip := rfl
@[simp] theorem beginStep_sp (s : State) : (beginStep s).sp = s.sp := rfl
@[simp] theorem beginStep_flags (s : State) : (beginStep s).flags = s.flags := rfl
@[simp] theorem beginStep_ivec (s : State) : (beginStep s).ivec = s.ivec := rfl
@[simp] theorem beginStep_runState (s : State) : (beginStep s).runState = s.runState := rfl
@[simp] theorem beginStep_faultRecord (s : State) : (beginStep s).faultRecord = s.faultRecord := rfl
@[simp] theorem beginStep_cycles (s : State) : (beginStep s).cycles = s.cycles + 1 := rfl
@[simp] theorem beginStep_mem (s : State) : (beginStep s).mem = s.mem := rfl
@[simp] theorem beginStep_phase (s : State) : (beginStep s).phase = .started := rfl
@[simp] theorem beginStep_cfg (s : State) : (beginStep s).cfg = s.cfg := rfl

/-! ### The advance of `ip` -/

@[simp] theorem advanceIp_regs (s : State) : (advanceIp s).regs = s.regs := rfl
@[simp] theorem advanceIp_ip (s : State) : (advanceIp s).ip = s.ip + 19 := rfl
@[simp] theorem advanceIp_sp (s : State) : (advanceIp s).sp = s.sp := rfl
@[simp] theorem advanceIp_flags (s : State) : (advanceIp s).flags = s.flags := rfl
@[simp] theorem advanceIp_ivec (s : State) : (advanceIp s).ivec = s.ivec := rfl
@[simp] theorem advanceIp_runState (s : State) : (advanceIp s).runState = s.runState := rfl
@[simp] theorem advanceIp_faultRecord (s : State) : (advanceIp s).faultRecord = s.faultRecord := rfl
@[simp] theorem advanceIp_cycles (s : State) : (advanceIp s).cycles = s.cycles := rfl
@[simp] theorem advanceIp_mem (s : State) : (advanceIp s).mem = s.mem := rfl
@[simp] theorem advanceIp_phase (s : State) : (advanceIp s).phase = s.phase := rfl
@[simp] theorem advanceIp_cfg (s : State) : (advanceIp s).cfg = s.cfg := rfl

/-! ### The fault controller -/

@[simp] theorem raiseFault_regs (k : FaultKind) (s : State) : (raiseFault k s).regs = s.regs := rfl
@[simp] theorem raiseFault_ip (k : FaultKind) (s : State) : (raiseFault k s).ip = s.ip := rfl
@[simp] theorem raiseFault_sp (k : FaultKind) (s : State) : (raiseFault k s).sp = s.sp := rfl
@[simp] theorem raiseFault_flags (k : FaultKind) (s : State) : (raiseFault k s).flags = s.flags := rfl
@[simp] theorem raiseFault_ivec (k : FaultKind) (s : State) : (raiseFault k s).ivec = s.ivec := rfl
@[simp] theorem raiseFault_runState (k : FaultKind) (s : State) : (raiseFault k s).runState = if s.ivec = 0 then .faulted else s.runState := rfl
@[simp] theorem raiseFault_faultRecord (k : FaultKind) (s : State) : (raiseFault k s).faultRecord = { valid := true, kind := some k, faultIp := s.ip, faultSp := s.sp } := rfl
@[simp] theorem raiseFault_cycles (k : FaultKind) (s : State) : (raiseFault k s).cycles = s.cycles := rfl
@[simp] theorem raiseFault_mem (k : FaultKind) (s : State) : (raiseFault k s).mem = s.mem := rfl
@[simp] theorem raiseFault_phase (k : FaultKind) (s : State) : (raiseFault k s).phase = s.phase := rfl
@[simp] theorem raiseFault_cfg (k : FaultKind) (s : State) : (raiseFault k s).cfg = s.cfg := rfl

/-! ### Reads of registers -/

@[simp] theorem readReg_ip (s : State) : s.readReg .ip = s.ip := rfl
@[simp] theorem readReg_sp (s : State) : s.readReg .sp = s.sp := rfl
@[simp] theorem readReg_general (s : State) (i : Fin 8) : s.readReg (.general i) = s.regs[i] := rfl

/-- A general register just written reads as the value written. -/
theorem regs_set_same (r : Vector Word 8) (i : Fin 8) (v : Word) : (r.set i v)[i] = v := by
  simp

/-- Writing a general register leaves the others alone. -/
theorem regs_set_other (r : Vector Word 8) {i j : Fin 8} (v : Word) (h : j ≠ i) : (r.set i v)[j] = r[j] := by
  have h' : i.val ≠ j.val := fun e => h (Fin.ext e.symm)
  simpa using Vector.getElem_set_ne i.isLt j.isLt h'

/-! ### `HALT` -/

/-- After `hlt` the core is halted. -/
@[simp] theorem setHalt_halted (s : State) : s.setHalt.halted = true := by
  simp [State.halted, haltMask]

/-- `hlt` keeps the reserved bits at 0. -/
theorem setHalt_reservedFlags {s : State} (h : reservedFlagsZero s.flags = true) :
    reservedFlagsZero s.setHalt.flags = true := by
  simp only [reservedFlagsZero, beq_iff_eq, setHalt_flags] at h ⊢
  rw [BitVec.and_or_distrib_right, h]
  decide

end Sys2Proof.Machine
end

