-- ==== Sys2Proof/Laws/Operands.lean ====
section
/-! SUPPORT. What the shared operations of Machine/Ops.lean and Machine/Operands.lean can answer, said once for each. -/

namespace Sys2Proof.Machine

open Sys2Proof

/-! ### Register indices -/

theorem generalRegister_eq_ok {w : Word} {i : Fin 8} : generalRegister w = .ok i ↔ w.toNat = i.val := by
  unfold generalRegister
  split
  · simp only [Except.ok.injEq]
    exact ⟨fun h => by rw [← h], fun h => Fin.ext h⟩
  · constructor
    · intro h; cases h
    · intro h; exact absurd i.isLt (by omega)

theorem generalRegister_eq_error {w : Word} {k : FaultKind} :
    generalRegister w = .error k ↔ 8 ≤ w.toNat ∧ k = .badRegisterIndex := by
  unfold generalRegister
  split
  · constructor
    · intro h; cases h
    · intro h; exact absurd h.1 (by omega)
  · simp only [Except.error.injEq]
    exact ⟨fun h => ⟨by omega, h.symm⟩, fun h => h.2.symm⟩

/-! ### Checked memory access -/

theorem memRead_eq_ok {s : State} {a : Word} {n : Width} {v : Word} :
    memRead s a n = .ok v ↔ InRange s a n.bytes ∧ v = readMem s a n := by
  unfold memRead
  split
  · simp only [Except.ok.injEq]
    exact ⟨fun h => ⟨‹_›, h.symm⟩, fun h => h.2.symm⟩
  · constructor
    · intro h; cases h
    · intro h; exact absurd h.1 ‹_›

theorem memWrite_eq_ok {s t : State} {a : Word} {n : Width} {v : Word} :
    memWrite s a n v = .ok t ↔ InRange s a n.bytes ∧ t = writeMem s a n v := by
  unfold memWrite
  split
  · simp only [Except.ok.injEq]
    exact ⟨fun h => ⟨‹_›, h.symm⟩, fun h => h.2.symm⟩
  · constructor
    · intro h; cases h
    · intro h; exact absurd h.1 ‹_›

/-- An 8-byte read of the 8 bytes just written gives the word written. -/
theorem readMem_writeMem_same (s : State) (a v : Word) : readMem (writeMem s a .w8 v) a .w8 = v := by
  have h := load_store_same s.mem a.toNat (leBytes 8 v.toNat)
  rw [length_leBytes] at h
  simp only [readMem, writeMem_mem, Width.bytes, h, leWord_leBytes_word]

/-- An 8-byte read that does not meet the 8 bytes just written is unchanged. -/
theorem readMem_writeMem_apart (s : State) {a b : Word} (v : Word)
    (h : b.toNat + 8 ≤ a.toNat ∨ a.toNat + 8 ≤ b.toNat) :
    readMem (writeMem s a .w8 v) b .w8 = readMem s b .w8 := by
  simp only [readMem, writeMem_mem, Width.bytes]
  rw [load_store_outside _ _ _ _ _ (by rw [length_leBytes]; exact h)]

/-! ### Stack slots -/

theorem checkPushSlot_eq_ok {s : State} : checkPushSlot s = .ok () ↔ InRange s s.sp 8 := by
  unfold checkPushSlot
  split <;> simp_all

theorem checkPushSlot_eq_error {s : State} {k : FaultKind} :
    checkPushSlot s = .error k ↔ ¬ InRange s s.sp 8 ∧ k = .memoryAccessOutOfRange := by
  unfold checkPushSlot
  split <;> simp_all [eq_comm]

theorem checkPopSlot_eq_ok {s : State} {a : Word} :
    checkPopSlot s = .ok a ↔ InRange s (s.sp - 8) 8 ∧ a = s.sp - 8 := by
  unfold checkPopSlot
  split <;> simp_all [eq_comm]

theorem checkPopSlot_eq_error {s : State} {k : FaultKind} :
    checkPopSlot s = .error k ↔ ¬ InRange s (s.sp - 8) 8 ∧ k = .memoryAccessOutOfRange := by
  unfold checkPopSlot
  split <;> simp_all [eq_comm]

/-- The slot below `sp` is in range exactly when `8 <= sp <= MEM_SIZE`: with less, `sp - 8` wraps to an address no
capacity reaches (44_stack.md R126). -/
theorem popSlot_inRange_iff (s : State) :
    InRange s (s.sp - 8) 8 ↔ 8 ≤ s.sp.toNat ∧ s.sp.toNat ≤ s.cfg.memSize.toNat := by
  have hm := s.cfg.memSize.isLt
  have hs := s.sp.isLt
  have h8 : (8 : Word).toNat = 8 := rfl
  simp only [InRange, BitVec.toNat_sub, h8]
  omega

/-! ### The resolver -/

/-- Everything `locate` can answer: a general register, 8 bytes in range, or, for a read alone, a constant. -/
theorem locate_ok_cases {s : State} {o : Operand} {k : Access} {l : Location} (h : locate s o k = .ok l) :
    (∃ w i, o = .reg w ∧ w.toNat = Fin.val i ∧ l = .reg i) ∨
    (∃ a, o = .memAbs a ∧ InRange s a 8 ∧ l = .mem a) ∨
    (∃ w i, o = .memReg w ∧ w.toNat = Fin.val i ∧ InRange s s.regs[i] 8 ∧ l = .mem s.regs[i]) ∨
    (∃ v, o = .const v ∧ k = .read ∧ l = .imm v) := by
  cases o with
  | reg w =>
    simp only [locate] at h
    split at h
    · cases h
    · rename_i i hi
      cases h
      exact Or.inl ⟨w, i, rfl, generalRegister_eq_ok.mp hi, rfl⟩
  | const v =>
    cases k with
    | read => cases h; exact Or.inr (Or.inr (Or.inr ⟨v, rfl, rfl, rfl⟩))
    | write => cases h
  | memAbs a =>
    simp only [locate, locateMem] at h
    split at h
    · cases h; exact Or.inr (Or.inl ⟨a, rfl, ‹_›, rfl⟩)
    · cases h
  | memReg w =>
    simp only [locate, locateMem] at h
    split at h
    · cases h
    · rename_i i hi
      split at h
      · rename_i hr
        cases h
        exact Or.inr (Or.inr (Or.inl ⟨w, i, rfl, generalRegister_eq_ok.mp hi, hr, rfl⟩))
      · cases h
  | noMode => cases h

/-- A location resolved for write is a register or 8 bytes in range, never a constant (30_encoding.md R77). -/
theorem locate_write_cases {s : State} {o : Operand} {l : Location} (h : locate s o .write = .ok l) :
    (∃ i, l = .reg i) ∨ (∃ a, l = .mem a ∧ InRange s a 8) := by
  rcases locate_ok_cases h with ⟨_, i, _, _, hl⟩ | ⟨a, _, hr, hl⟩ | ⟨_, i, _, _, hr, hl⟩ | ⟨_, _, hk, _⟩
  · exact Or.inl ⟨i, hl⟩
  · exact Or.inr ⟨a, hl, hr⟩
  · exact Or.inr ⟨_, hl, hr⟩
  · cases hk

/-- Everything `locate` can raise, and when. -/
theorem locate_error_cases {s : State} {o : Operand} {k : Access} {f : FaultKind} (h : locate s o k = .error f) :
    (f = .badRegisterIndex ∧ ∃ w, (o = .reg w ∨ o = .memReg w) ∧ 8 ≤ w.toNat) ∨
    (f = .memoryAccessOutOfRange ∧ ∃ a, (o = .memAbs a ∨ ∃ w i, o = .memReg w ∧ w.toNat = Fin.val i ∧ a = s.regs[i])
      ∧ ¬ InRange s a 8) ∨
    (f = .badOperandFlagCombination ∧ (o = .noMode ∨ ∃ v, o = .const v ∧ k = .write)) := by
  cases o with
  | reg w =>
    simp only [locate] at h
    split at h
    · rename_i e he
      cases h
      obtain ⟨hw, hf⟩ := generalRegister_eq_error.mp he
      exact Or.inl ⟨hf, w, Or.inl rfl, hw⟩
    · cases h
  | const v =>
    cases k with
    | read => cases h
    | write => cases h; exact Or.inr (Or.inr ⟨rfl, Or.inr ⟨v, rfl, rfl⟩⟩)
  | memAbs a =>
    simp only [locate, locateMem] at h
    split at h
    · cases h
    · cases h; exact Or.inr (Or.inl ⟨rfl, a, Or.inl rfl, ‹_›⟩)
  | memReg w =>
    simp only [locate, locateMem] at h
    split at h
    · rename_i e he
      cases h
      obtain ⟨hw, hf⟩ := generalRegister_eq_error.mp he
      exact Or.inl ⟨hf, w, Or.inr rfl, hw⟩
    · rename_i i hi
      split at h
      · cases h
      · rename_i hr
        cases h
        exact Or.inr (Or.inl ⟨rfl, _, Or.inr ⟨w, i, rfl, generalRegister_eq_ok.mp hi, rfl⟩, hr⟩)
  | noMode => cases h; exact Or.inr (Or.inr ⟨rfl, Or.inl rfl⟩)

/-! ### Writing a location changes registers or memory and nothing else -/

@[simp] theorem writeLoc_ip (s : State) (l : Location) (v : Word) : (writeLoc s l v).ip = s.ip := by cases l <;> rfl
@[simp] theorem writeLoc_sp (s : State) (l : Location) (v : Word) : (writeLoc s l v).sp = s.sp := by cases l <;> rfl
@[simp] theorem writeLoc_flags (s : State) (l : Location) (v : Word) : (writeLoc s l v).flags = s.flags := by
  cases l <;> rfl
@[simp] theorem writeLoc_ivec (s : State) (l : Location) (v : Word) : (writeLoc s l v).ivec = s.ivec := by
  cases l <;> rfl
@[simp] theorem writeLoc_runState (s : State) (l : Location) (v : Word) : (writeLoc s l v).runState = s.runState := by
  cases l <;> rfl
@[simp] theorem writeLoc_faultRecord (s : State) (l : Location) (v : Word) :
    (writeLoc s l v).faultRecord = s.faultRecord := by cases l <;> rfl
@[simp] theorem writeLoc_cycles (s : State) (l : Location) (v : Word) : (writeLoc s l v).cycles = s.cycles := by
  cases l <;> rfl
@[simp] theorem writeLoc_phase (s : State) (l : Location) (v : Word) : (writeLoc s l v).phase = s.phase := by
  cases l <;> rfl
@[simp] theorem writeLoc_cfg (s : State) (l : Location) (v : Word) : (writeLoc s l v).cfg = s.cfg := by
  cases l <;> rfl

/-- A written location reads as the value written. -/
theorem readLoc_writeLoc_same (s : State) {l : Location} (v : Word) (h : ∀ c, l ≠ .imm c) :
    readLoc (writeLoc s l v) l = v := by
  cases l with
  | reg i => simp [readLoc, writeLoc]
  | mem a => exact readMem_writeMem_same s a v
  | imm c => exact absurd rfl (h c)

end Sys2Proof.Machine
end

