-- ==== Sys2Proof/Laws/Effect.lean ====
section
/-! SUPPORT. What an instruction's effect can do, said once; the meaning of an instruction is its effect concluded. -/

namespace Sys2Proof.Machine

open Sys2Proof

/-- Every arm of `exec` is its effect concluded through the one fault funnel. -/
theorem exec_eq_conclude (i : Instr) (s : State) : exec i s = conclude s (effect i s) := by
  cases i <;> rfl

@[simp] theorem conclude_ok (s t : State) : conclude s (.ok t) = .next t := rfl
@[simp] theorem conclude_error (s : State) (k : FaultKind) : conclude s (.error k) = .next (raiseFault k s) := rfl

/-- A meaning answers next: the effect's state, or the state it started from with the fault raised. -/
theorem exec_next_cases {i : Instr} {s t : State} (h : exec i s = .next t) :
    effect i s = .ok t ∨ ∃ k, effect i s = .error k ∧ t = raiseFault k s := by
  rw [exec_eq_conclude] at h
  cases he : effect i s with
  | ok u => rw [he, conclude_ok] at h; cases h; exact Or.inl rfl
  | error k => rw [he, conclude_error] at h; cases h; exact Or.inr ⟨k, rfl, rfl⟩

/-! ### Each effect, inverted -/

theorem effectMov_ok {dst src : Operand} {s t : State} (h : effectMov dst src s = .ok t) :
    ∃ a b, locate s src .read = .ok a ∧ locate s dst .write = .ok b ∧ t = writeLoc s b (readLoc s a) := by
  unfold effectMov at h
  cases ha : locate s src .read with
  | error k => rw [ha] at h; cases h
  | ok a =>
    cases hb : locate s dst .write with
    | error k => rw [ha, hb] at h; cases h
    | ok b => rw [ha, hb] at h; cases h; exact ⟨a, b, rfl, rfl, rfl⟩

theorem effectJmp_ok {dst : Operand} {s t : State} (h : effectJmp dst s = .ok t) :
    ∃ a, locate s dst .read = .ok a ∧ t = s.writeReg .ip (readLoc s a) := by
  unfold effectJmp at h
  cases ha : locate s dst .read with
  | error k => rw [ha] at h; cases h
  | ok a => rw [ha] at h; cases h; exact ⟨a, rfl, rfl⟩

theorem modifyLoc_ok {f : Word → Word} {dst : Operand} {s t : State} (h : modifyLoc f dst s = .ok t) :
    ∃ b, locate s dst .write = .ok b ∧ t = writeLoc s b (f (readLoc s b)) := by
  unfold modifyLoc at h
  cases hb : locate s dst .write with
  | error k => rw [hb] at h; cases h
  | ok b => rw [hb] at h; cases h; exact ⟨b, rfl, rfl⟩

theorem effectInc_ok {dst : Operand} {s t : State} (h : effectInc dst s = .ok t) :
    ∃ b, locate s dst .write = .ok b ∧ t = writeLoc s b (readLoc s b + 1) := modifyLoc_ok h

theorem effectDec_ok {dst : Operand} {s t : State} (h : effectDec dst s = .ok t) :
    ∃ b, locate s dst .write = .ok b ∧ t = writeLoc s b (readLoc s b - 1) := modifyLoc_ok h

theorem effectPush_ok {src : Operand} {s t : State} (h : effectPush src s = .ok t) :
    ∃ a, locate s src .read = .ok a ∧ InRange s s.sp 8 ∧ t = pushWord s (readLoc s a) := by
  unfold effectPush at h
  cases ha : locate s src .read with
  | error k => rw [ha] at h; cases h
  | ok a =>
    cases hc : checkPushSlot s with
    | error k => rw [ha, hc] at h; cases h
    | ok u => rw [ha, hc] at h; cases h; exact ⟨a, rfl, checkPushSlot_eq_ok.mp hc, rfl⟩

theorem effectPop_ok {dst : Operand} {s t : State} (h : effectPop dst s = .ok t) :
    ∃ b, InRange s (s.sp - 8) 8 ∧ locate s dst .write = .ok b ∧
      t = writeLoc (s.writeReg .sp (s.sp - 8)) b (readMem s (s.sp - 8) .w8) := by
  unfold effectPop at h
  cases hc : checkPopSlot s with
  | error k => rw [hc] at h; cases h
  | ok a =>
    cases hb : locate s dst .write with
    | error k => rw [hc, hb] at h; cases h
    | ok b =>
      rw [hc, hb] at h
      cases h
      obtain ⟨hr, rfl⟩ := checkPopSlot_eq_ok.mp hc
      exact ⟨b, hr, rfl, rfl⟩

theorem effectCall_ok {dst : Operand} {s t : State} (h : effectCall dst s = .ok t) :
    ∃ a, InRange s s.sp 8 ∧ locate s dst .read = .ok a ∧
      t = (pushWord s s.ip).writeReg .ip (readLoc (pushWord s s.ip) a) := by
  unfold effectCall at h
  cases hc : checkPushSlot s with
  | error k => rw [hc] at h; cases h
  | ok u =>
    cases ha : locate s dst .read with
    | error k => rw [hc, ha] at h; cases h
    | ok a => rw [hc, ha] at h; cases h; exact ⟨a, checkPushSlot_eq_ok.mp hc, rfl, rfl⟩

theorem effectRet_ok {s t : State} (h : effectRet s = .ok t) :
    InRange s (s.sp - 8) 8 ∧ t = (s.writeReg .sp (s.sp - 8)).writeReg .ip (readMem s (s.sp - 8) .w8) := by
  unfold effectRet at h
  cases hc : checkPopSlot s with
  | error k => rw [hc] at h; cases h
  | ok a =>
    rw [hc] at h
    cases h
    obtain ⟨hr, rfl⟩ := checkPopSlot_eq_ok.mp hc
    exact ⟨hr, rfl⟩

/-! ### All effects together -/

/-- The state an effect never writes: the hidden state, `ivec` and the parameters. -/
structure SameControl (s t : State) : Prop where
  ivec : t.ivec = s.ivec
  runState : t.runState = s.runState
  faultRecord : t.faultRecord = s.faultRecord
  cycles : t.cycles = s.cycles
  phase : t.phase = s.phase
  cfg : t.cfg = s.cfg

/-- Memory is as before, or one 8-byte store in range has been made. -/
def OneStore (s t : State) : Prop :=
  t.mem = s.mem ∨ ∃ a v : Word, InRange s a 8 ∧ t.mem = Memory.store s.mem a.toNat (leBytes 8 v.toNat)

theorem writeLoc_sameControl (s : State) (l : Location) (v : Word) : SameControl s (writeLoc s l v) :=
  ⟨by simp, by simp, by simp, by simp, by simp, by simp⟩

theorem writeLoc_oneStore {s : State} {o : Operand} {l : Location} (v : Word) (h : locate s o .write = .ok l) :
    OneStore s (writeLoc s l v) := by
  rcases locate_write_cases h with ⟨i, rfl⟩ | ⟨a, rfl, hr⟩
  · exact Or.inl rfl
  · exact Or.inr ⟨a, v, hr, rfl⟩

/-- What any effect can do outside the general registers, `ip` and `sp`: it keeps the control state, makes at most one
8-byte store in range, and writes `flags` only as `hlt`. -/
theorem effect_ok_cases {i : Instr} {s t : State} (h : effect i s = .ok t) :
    SameControl s t ∧ OneStore s t ∧ (t.flags = s.flags ∨ i = .hlt ∧ t.flags = s.flags ||| haltMask) := by
  have hRefl : SameControl s s := ⟨rfl, rfl, rfl, rfl, rfl, rfl⟩
  cases i with
  | nop => cases h; exact ⟨hRefl, Or.inl rfl, Or.inl rfl⟩
  | hlt => cases h; exact ⟨⟨rfl, rfl, rfl, rfl, rfl, rfl⟩, Or.inl rfl, Or.inr ⟨rfl, rfl⟩⟩
  | mov dst src =>
    obtain ⟨a, b, _, hb, rfl⟩ := effectMov_ok h
    exact ⟨writeLoc_sameControl s b _, writeLoc_oneStore _ hb, Or.inl (by simp)⟩
  | jmp dst =>
    obtain ⟨a, _, rfl⟩ := effectJmp_ok h
    exact ⟨⟨rfl, rfl, rfl, rfl, rfl, rfl⟩, Or.inl rfl, Or.inl rfl⟩
  | inc dst =>
    obtain ⟨b, hb, rfl⟩ := effectInc_ok h
    exact ⟨writeLoc_sameControl s b _, writeLoc_oneStore _ hb, Or.inl (by simp)⟩
  | dec dst =>
    obtain ⟨b, hb, rfl⟩ := effectDec_ok h
    exact ⟨writeLoc_sameControl s b _, writeLoc_oneStore _ hb, Or.inl (by simp)⟩
  | push src =>
    obtain ⟨a, _, hr, rfl⟩ := effectPush_ok h
    exact ⟨⟨rfl, rfl, rfl, rfl, rfl, rfl⟩, Or.inr ⟨_, _, hr, rfl⟩, Or.inl rfl⟩
  | pop dst =>
    obtain ⟨b, _, hb, rfl⟩ := effectPop_ok h
    refine ⟨⟨by simp, by simp, by simp, by simp, by simp, by simp⟩, ?_, Or.inl (by simp)⟩
    rcases locate_write_cases hb with ⟨i, rfl⟩ | ⟨a, rfl, hr⟩
    · exact Or.inl rfl
    · exact Or.inr ⟨a, _, hr, rfl⟩
  | call dst =>
    obtain ⟨a, hr, _, rfl⟩ := effectCall_ok h
    refine ⟨⟨by simp, by simp, by simp, by simp, by simp, by simp⟩, Or.inr ⟨s.sp, s.ip, hr, ?_⟩, Or.inl (by simp)⟩
    rw [writeIp_mem, pushWord_mem]
  | ret =>
    obtain ⟨_, rfl⟩ := effectRet_ok h
    exact ⟨⟨by simp, by simp, by simp, by simp, by simp, by simp⟩, Or.inl (by simp), Or.inl (by simp)⟩

/-- Every fault an effect can raise is that of an operand the instruction uses, located with the kind R69 gives it, or of
its stack slot: `[sp, sp + 8)` for `push` and `call`, `[sp - 8, sp)` for `pop` and `ret`. -/
theorem effect_error_cases {i : Instr} {s : State} {k : FaultKind} (h : effect i s = .error k) :
    (∃ o a, (o, a) ∈ i.uses ∧ locate s o a = .error k) ∨
    (k = .memoryAccessOutOfRange ∧ ((∃ o, i = .push o) ∨ ∃ o, i = .call o) ∧ ¬ InRange s s.sp 8) ∨
    (k = .memoryAccessOutOfRange ∧ ((∃ o, i = .pop o) ∨ i = .ret) ∧ ¬ InRange s (s.sp - 8) 8) := by
  cases i with
  | nop => cases h
  | hlt => cases h
  | mov dst src =>
    simp only [effect, effectMov] at h
    cases ha : locate s src .read with
    | error e => rw [ha] at h; cases h; exact Or.inl ⟨src, .read, by simp [Instr.uses], ha⟩
    | ok a =>
      cases hb : locate s dst .write with
      | error e => rw [ha, hb] at h; cases h; exact Or.inl ⟨dst, .write, by simp [Instr.uses], hb⟩
      | ok b => rw [ha, hb] at h; cases h
  | jmp dst =>
    simp only [effect, effectJmp] at h
    cases ha : locate s dst .read with
    | error e => rw [ha] at h; cases h; exact Or.inl ⟨dst, .read, by simp [Instr.uses], ha⟩
    | ok a => rw [ha] at h; cases h
  | inc dst =>
    simp only [effect, effectInc, modifyLoc] at h
    cases ha : locate s dst .write with
    | error e => rw [ha] at h; cases h; exact Or.inl ⟨dst, .write, by simp [Instr.uses], ha⟩
    | ok a => rw [ha] at h; cases h
  | dec dst =>
    simp only [effect, effectDec, modifyLoc] at h
    cases ha : locate s dst .write with
    | error e => rw [ha] at h; cases h; exact Or.inl ⟨dst, .write, by simp [Instr.uses], ha⟩
    | ok a => rw [ha] at h; cases h
  | push src =>
    simp only [effect, effectPush] at h
    cases ha : locate s src .read with
    | error e => rw [ha] at h; cases h; exact Or.inl ⟨src, .read, by simp [Instr.uses], ha⟩
    | ok a =>
      cases hc : checkPushSlot s with
      | error e =>
        rw [ha, hc] at h
        cases h
        obtain ⟨hr, hk⟩ := checkPushSlot_eq_error.mp hc
        exact Or.inr (Or.inl ⟨hk, Or.inl ⟨src, rfl⟩, hr⟩)
      | ok b => rw [ha, hc] at h; cases h
  | pop dst =>
    simp only [effect, effectPop] at h
    cases hc : checkPopSlot s with
    | error e =>
      rw [hc] at h
      cases h
      obtain ⟨hr, hk⟩ := checkPopSlot_eq_error.mp hc
      exact Or.inr (Or.inr ⟨hk, Or.inl ⟨dst, rfl⟩, hr⟩)
    | ok b =>
      cases ha : locate s dst .write with
      | error e => rw [hc, ha] at h; cases h; exact Or.inl ⟨dst, .write, by simp [Instr.uses], ha⟩
      | ok a => rw [hc, ha] at h; cases h
  | call dst =>
    simp only [effect, effectCall] at h
    cases hc : checkPushSlot s with
    | error e =>
      rw [hc] at h
      cases h
      obtain ⟨hr, hk⟩ := checkPushSlot_eq_error.mp hc
      exact Or.inr (Or.inl ⟨hk, Or.inr ⟨dst, rfl⟩, hr⟩)
    | ok b =>
      cases ha : locate s dst .read with
      | error e => rw [hc, ha] at h; cases h; exact Or.inl ⟨dst, .read, by simp [Instr.uses], ha⟩
      | ok a => rw [hc, ha] at h; cases h
  | ret =>
    simp only [effect, effectRet] at h
    cases hc : checkPopSlot s with
    | error e =>
      rw [hc] at h
      cases h
      obtain ⟨hr, hk⟩ := checkPopSlot_eq_error.mp hc
      exact Or.inr (Or.inr ⟨hk, Or.inr rfl, hr⟩)
    | ok b => rw [hc] at h; cases h

end Sys2Proof.Machine
end

