-- ==== Sys2Proof/Laws/PerInstr.lean ====
section
/-! SUPPORT. Statements for all instructions, one lemma per constructor. -/

namespace Sys2Proof.Laws.RecordRoundTrip

open Sys2Proof

/-- The canonical record of an instruction decodes to the instruction (spec/30_encoding.md R67, R70, R85). -/
def Statement (i : Instr) : Prop := decodeRecord i.record = .ok i

/-- What is left of the statement once the opcode has selected its row. -/
theorem of_row {i : Instr} (h : i.record.instr? = some i) : Statement i := by
  simp [Statement, decodeRecord, h]

theorem nop : Statement .nop := of_row rfl
theorem mov (dst src : Operand) : Statement (.mov dst src) :=
  of_row (by simp [Record.instr?, Instr.opcode, Instr.dstOperand, Instr.srcOperand])
theorem hlt : Statement .hlt := of_row rfl
theorem jmp (dst : Operand) : Statement (.jmp dst) := of_row (by simp [Record.instr?, Instr.opcode, Instr.dstOperand])
theorem inc (dst : Operand) : Statement (.inc dst) := of_row (by simp [Record.instr?, Instr.opcode, Instr.dstOperand])
theorem dec (dst : Operand) : Statement (.dec dst) := of_row (by simp [Record.instr?, Instr.opcode, Instr.dstOperand])
theorem push (src : Operand) : Statement (.push src) :=
  of_row (by simp [Record.instr?, Instr.opcode, Instr.srcOperand])
theorem pop (dst : Operand) : Statement (.pop dst) := of_row (by simp [Record.instr?, Instr.opcode, Instr.dstOperand])
theorem call (dst : Operand) : Statement (.call dst) :=
  of_row (by simp [Record.instr?, Instr.opcode, Instr.dstOperand])
theorem ret : Statement .ret := of_row rfl

end Sys2Proof.Laws.RecordRoundTrip
end

