-- ==== Sys2Proof/Laws/Step.lean ====
section
/-! SUPPORT. What a step can do, said once. -/

namespace Sys2Proof.Machine

open Sys2Proof

/-- The front of a step answers the instruction at `ip` with `ip` advanced, or the first failing check: the fetch, whose
fault leaves `ip`, or the decoder, whose fault follows the advance (R80, R81). -/
theorem fetchDecode_cases (s : State) :
    (∃ i rest, InRange s s.ip recordSize ∧ decode (Memory.load s.mem s.ip.toNat recordSize) = .ok (i, rest) ∧
      fetchDecode s = .ok (i, advanceIp s)) ∨
    (¬ InRange s s.ip recordSize ∧ fetchDecode s = .error (.memoryAccessOutOfRange, s)) ∨
    (∃ e, InRange s s.ip recordSize ∧ decode (Memory.load s.mem s.ip.toNat recordSize) = .error e ∧
      fetchDecode s = .error (decodeFault e, advanceIp s)) := by
  by_cases hr : InRange s s.ip recordSize
  · cases hd : decode (Memory.load s.mem s.ip.toNat recordSize) with
    | error e => exact Or.inr (Or.inr ⟨e, hr, rfl, by simp [fetchDecode, fetchRecord, hr, hd]⟩)
    | ok p =>
      obtain ⟨i, rest⟩ := p
      exact Or.inl ⟨i, rest, hr, rfl, by simp [fetchDecode, fetchRecord, hr, hd]⟩
  · exact Or.inr (Or.inl ⟨hr, by simp [fetchDecode, fetchRecord, hr]⟩)

/-- A step from a state that is neither faulted nor halted. -/
theorem step_of_fetches {s : State} (h : Fetches s) :
    step s =
      match fetchDecode (beginStep s) with
      | .error (k, t) => .next (raiseFault k t)
      | .ok (i, t) => exec i t := by
  have hrun : s.runState ≠ .faulted := by rw [h.1]; decide
  have hhalt : ¬ s.halted = true := by rw [h.2]; decide
  exact (if_neg hrun).trans (if_neg hhalt)

/-- The host's STEP from such a state. -/
theorem stepAction_of_fetches {s : State} (h : Fetches s) :
    stepAction s =
      match fetchDecode (beginStep s) with
      | .error (k, t) => raiseOutcome k t
      | .ok (i, t) =>
        match effect i t with
        | .error k => raiseOutcome k t
        | .ok u => (.executed, u) := by
  have hrun : s.runState ≠ .faulted := by rw [h.1]; decide
  have hhalt : ¬ s.halted = true := by rw [h.2]; decide
  exact (if_neg hrun).trans (if_neg hhalt)

/-- The state after the advance is the one the handler sees. -/
theorem advanceIp_beginStep (s : State) : advanceIp (beginStep s) = handlerState s := rfl

/-- The front of a step whose record does not lie in memory. -/
theorem fetchDecode_outOfRange {s : State} (h : ¬ InRange s s.ip 19) :
    fetchDecode (beginStep s) = .error (.memoryAccessOutOfRange, beginStep s) := by
  have h' : ¬ InRange (beginStep s) (beginStep s).ip recordSize := h
  simp only [fetchDecode, fetchRecord, if_neg h']

/-- The front of a step whose record lies in memory. -/
theorem fetchDecode_inRange {s : State} (h : InRange s s.ip 19) :
    fetchDecode (beginStep s) =
      match decode (Memory.load s.mem s.ip.toNat 19) with
      | .error e => .error (decodeFault e, handlerState s)
      | .ok (i, _) => .ok (i, handlerState s) := by
  have h' : InRange (beginStep s) (beginStep s).ip recordSize := h
  simp only [fetchDecode, fetchRecord, if_pos h']
  rfl

/-- Nineteen bytes of memory are a record whose first two bytes are its opcode and its flags (R61). -/
theorem ofBytes_load (m : Memory) (a : Nat) :
    ∃ r, Record.ofBytes (Memory.load m a 19) = some (r, []) ∧ r.opcode = Memory.byte m a ∧
      r.flags = Memory.byte m (a + 1) := by
  have hload : Memory.load m a 19 =
      Memory.byte m a :: Memory.byte m (a + 1) :: Memory.byte m (a + 2) :: Memory.load m (a + 3) 16 := rfl
  have hlen := length_load m a 19
  rw [hload] at hlen ⊢
  rw [Record.ofBytes, if_neg (by rw [hlen]; decide)]
  exact ⟨_, by simp; rfl, rfl, rfl⟩

/-- An instruction decoded from memory has the opcode byte it was decoded from. -/
theorem opcode_of_decode_load {m : Memory} {a : Nat} {i : Instr} {rest : List Byte}
    (h : decode (Memory.load m a 19) = .ok (i, rest)) : i.opcode = Memory.byte m a := by
  obtain ⟨r, hr, ho, _⟩ := ofBytes_load m a
  rw [decode, hr] at h
  cases hd : decodeRecord r with
  | error e => simp [hd] at h
  | ok j =>
    simp only [hd, Except.ok.injEq, Prod.mk.injEq] at h
    rw [← h.1, opcode_of_decodeRecord hd, ho]

/-- Everything a step that answers next can have done: nothing, because it was halted; raised a fault in the front of
the step; run an instruction to its end; or raised that instruction's fault. -/
theorem step_next_cases {s t : State} (h : step s = .next t) :
    s.runState = .running ∧
    ((s.halted = true ∧ t = s) ∨
     (s.halted = false ∧
       ((∃ k u, fetchDecode (beginStep s) = .error (k, u) ∧ (u = beginStep s ∨ u = advanceIp (beginStep s)) ∧
          t = raiseFault k u) ∨
        (∃ i, fetchDecode (beginStep s) = .ok (i, advanceIp (beginStep s)) ∧
          (effect i (advanceIp (beginStep s)) = .ok t ∨
           ∃ k, effect i (advanceIp (beginStep s)) = .error k ∧ t = raiseFault k (advanceIp (beginStep s))))))) := by
  unfold step at h
  split at h
  · cases h
  · have hrun : s.runState = .running := by
      cases hs : s.runState with
      | running => rfl
      | faulted => contradiction
    refine ⟨hrun, ?_⟩
    split at h
    · cases h
      exact Or.inl ⟨‹_›, rfl⟩
    · refine Or.inr ⟨by simpa using ‹¬ s.halted = true›, ?_⟩
      rcases fetchDecode_cases (beginStep s) with ⟨i, rest, _, _, hf⟩ | ⟨_, hf⟩ | ⟨e, _, _, hf⟩
      · rw [hf] at h
        exact Or.inr ⟨i, hf, exec_next_cases h⟩
      · rw [hf] at h
        cases h
        exact Or.inl ⟨_, _, hf, Or.inl rfl, rfl⟩
      · rw [hf] at h
        cases h
        exact Or.inl ⟨_, _, hf, Or.inr rfl, rfl⟩

/-! ### Several steps -/

theorem run_zero (s : State) : Host.Core.run core 0 s = .next s := rfl

/-- A run goes on from the state its first step answers. -/
theorem run_succ {s t : State} (n : Nat) (h : step s = .next t) :
    Host.Core.run core (n + 1) s = Host.Core.run core n t := by
  have h' : core.step s = .next t := h
  simp only [Host.Core.run]
  rw [h']

end Sys2Proof.Machine
end

