-- ==== Sys2Proof/Tests/Slice0.lean ====
section
/-! SUPPORT. Tests of the model on the spec's own vectors (spec/95_test_vectors.md, named in each comment), records
written out byte by byte from the layout of 30_encoding.md R61, ill-formed terms the checks refuse, and a witness for the
hypotheses of every statement in Certificates/Slice0/Obligations.lean that has some. -/

namespace Sys2Proof.Tests

open Sys2Proof Sys2Proof.Machine

/-- The common start of 95_test_vectors.md section 2. -/
def start : State := State.resetWith { memSize := 0x200, spReset := 0x100, ivecReset := 0 }

/-- The same with a vector installed. -/
def vectored : State := { start with ivec := 1, cfg := { start.cfg with ivecReset := 1 } }

/-- Bytes put at an address. -/
def put (s : State) (a : Nat) (bytes : List Byte) : State := { s with mem := Memory.store s.mem a bytes }

/-- A general register given a value. -/
def setReg (s : State) (i : Fin 8) (v : Word) : State := { s with regs := s.regs.set i v }

/-- The state a step answers, if it answers one. -/
def nextOf (o : Host.Outcome State Fault Refusal) : Option State :=
  match o with
  | .next t => some t
  | .fault _ => none
  | .refused _ => none

/-! ### Decoding: one record of each instruction, bytes written out from R61, R63, R67 -/

/-- B2: unused fields are not zero. -/
theorem test_decode_nop :
    decode [0x00, 0x3f, 0xab, 0xff, 0xff, 0xff, 0xff, 0xff, 0xff, 0xff, 0xff, 0x34, 0x12, 0, 0, 0, 0, 0, 0]
      = .ok (.nop, []) := by decide

/-- B20: opcode 01; DM, DR = 22; SM = 01. -/
theorem test_decode_mov :
    decode [0x01, 0x23, 0, 0x02, 0, 0, 0, 0, 0, 0, 0, 0x10, 0x01, 0, 0, 0, 0, 0, 0]
      = .ok (.mov (.memReg 2) (.memAbs 0x110), []) := by decide

theorem test_decode_hlt :
    decode [0x02, 0, 0, 0, 0, 0, 0, 0, 0, 0, 0, 0, 0, 0, 0, 0, 0, 0, 0] = .ok (.hlt, []) := by decide

/-- J9: the source fields hold junk. -/
theorem test_decode_jmp :
    decode [0x03, 0x19, 0, 0x13, 0, 0, 0, 0, 0, 0, 0, 0x99, 0, 0, 0, 0, 0, 0, 0] = .ok (.jmp (.const 0x13), []) := by
  decide

/-- A5. -/
theorem test_decode_inc :
    decode [0x04, 0x02, 0, 0x80, 0x01, 0, 0, 0, 0, 0, 0, 0, 0, 0, 0, 0, 0, 0, 0] = .ok (.inc (.memAbs 0x180), []) := by
  decide

/-- A12: DM with DC is memory. -/
theorem test_decode_dec :
    decode [0x05, 0x0a, 0, 0x80, 0x01, 0, 0, 0, 0, 0, 0, 0, 0, 0, 0, 0, 0, 0, 0] = .ok (.dec (.memAbs 0x180), []) := by
  decide

/-- P4, the record at 76: `push [r1]`, with one byte after it. -/
theorem test_decode_push :
    decode [0x06, 0x11, 0, 0, 0, 0, 0, 0, 0, 0, 0, 0x01, 0, 0, 0, 0, 0, 0, 0, 0x55]
      = .ok (.push (.memReg 1), [0x55]) := by decide

/-- K9. -/
theorem test_decode_pop :
    decode [0x07, 0x20, 0, 0x02, 0, 0, 0, 0, 0, 0, 0, 0, 0, 0, 0, 0, 0, 0, 0] = .ok (.pop (.reg 2), []) := by decide

/-- C4. -/
theorem test_decode_call :
    decode [0x08, 0x22, 0, 0x01, 0, 0, 0, 0, 0, 0, 0, 0, 0, 0, 0, 0, 0, 0, 0] = .ok (.call (.memReg 1), []) := by
  decide

/-- C13. -/
theorem test_decode_ret :
    decode [0x09, 0x3f, 0x12, 0xff, 0xff, 0xff, 0xff, 0xff, 0xff, 0xff, 0xff, 0xff, 0xff, 0xff, 0xff, 0xff, 0xff, 0xff,
      0xff] = .ok (.ret, []) := by decide

/-- B6: the opcode is checked before the reserved flag bits; B3; and a record cut short. -/
theorem test_decode_rejects :
    decode [0xff, 0xc0, 0, 0, 0, 0, 0, 0, 0, 0, 0, 0, 0, 0, 0, 0, 0, 0, 0] = .error (.invalidOpcode 0xff) ∧
    decode [0x00, 0x40, 0, 0, 0, 0, 0, 0, 0, 0, 0, 0, 0, 0, 0, 0, 0, 0, 0] = .error .reservedFlagBits ∧
    decode [0x00, 0, 0, 0, 0, 0, 0, 0, 0, 0, 0, 0, 0, 0, 0, 0, 0, 0] = .error .truncated := by decide

/-- The bytes of `mov r7, #0xFFFF_FFFF_FFFF_FFFF` (B10) from the encoder. -/
theorem test_encode_mov :
    encode (.mov (.reg 7) (.const 0xFFFFFFFFFFFFFFFF))
      = [0x01, 0x24, 0, 0x07, 0, 0, 0, 0, 0, 0, 0, 0xff, 0xff, 0xff, 0xff, 0xff, 0xff, 0xff, 0xff] := by decide

/-- `hlt` numbered as spec/opcode_table.json numbers it, decoded and run as the first instruction after reset. -/
theorem test_tableWord_hlt :
    decodeTableWord 16 0x0002 = some .hlt ∧
    (nextOf (step (State.reset.withFetchWord 16 0x0002))).map (fun t => (t.flags, t.ip)) = some (1, 19) := by decide

/-! ### Ill-formed terms -/

/-- The table of 30_encoding.md R69: the operands each opcode uses and their kinds. -/
theorem test_uses (d o : Operand) :
    Instr.nop.uses = [] ∧ Instr.hlt.uses = [] ∧ Instr.ret.uses = [] ∧
    (Instr.mov d o).uses = [(o, .read), (d, .write)] ∧ (Instr.jmp d).uses = [(d, .read)] ∧
    (Instr.call d).uses = [(d, .read)] ∧ (Instr.inc d).uses = [(d, .write)] ∧ (Instr.dec d).uses = [(d, .write)] ∧
    (Instr.push o).uses = [(o, .read)] ∧ (Instr.pop d).uses = [(d, .write)] :=
  ⟨rfl, rfl, rfl, rfl, rfl, rfl, rfl, rfl, rfl, rfl⟩

theorem test_wellFormed_mode : Instr.wellFormed (.push .noMode) = false := by decide
theorem test_wellFormed_index : Instr.wellFormed (.jmp (.memReg 8)) = false := by decide
theorem test_wellFormed_constant : Instr.wellFormed (.pop (.const 1)) = false := by decide
theorem test_wellFormed_accepts : Instr.wellFormed (.mov (.reg 7) (.const 1)) = true := by decide

/-! ### One step -/

/-- B1: only `ip` and `cycles` move. -/
theorem test_step_nop : (nextOf (step start)).map (fun t => (t.ip, t.cycles, t.sp, t.flags)) = some (0x13, 1, 0x100, 0) := by
  decide

/-- B21: overlapping memory operands; the source is read whole first. -/
theorem test_step_mov_overlap :
    (nextOf (step (put (put start 0 [0x01, 0x03, 0, 0x04, 0x01, 0, 0, 0, 0, 0, 0, 0, 0x01, 0, 0, 0, 0, 0, 0])
      0x100 [0x00, 0x11, 0x22, 0x33, 0x44, 0x55, 0x66, 0x77]))).map (fun t => Memory.load t.mem 0x100 12)
      = some [0x00, 0x11, 0x22, 0x33, 0x00, 0x11, 0x22, 0x33, 0x44, 0x55, 0x66, 0x77] := by decide

/-- B33: a move over its own record changes memory and not the executing instruction. -/
theorem test_step_mov_own_record :
    (nextOf (step (put start 0 [0x01, 0x06, 0, 0, 0, 0, 0, 0, 0, 0, 0, 0, 0, 0, 0, 0, 0, 0, 0]))).map
      (fun t => (t.mem, t.ip)) = some ([], 0x13) := by decide

/-- B34. -/
theorem test_step_hlt :
    (nextOf (step (put start 0 [0x02, 0, 0, 0, 0, 0, 0, 0, 0, 0, 0, 0, 0, 0, 0, 0, 0, 0, 0]))).map
      (fun t => (t.flags, t.ip, t.runState)) = some (1, 0x13, .running) := by decide

/-- J3. -/
theorem test_step_jmp_indirect :
    (nextOf (step (setReg (put (put start 0 [0x03, 0x22, 0, 0x04, 0, 0, 0, 0, 0, 0, 0, 0, 0, 0, 0, 0, 0, 0, 0])
      0x100 [0x39]) 4 0x100))).map (fun t => t.ip) = some 0x39 := by decide

/-- A5: the carry crosses bytes. -/
theorem test_step_inc_carry :
    (nextOf (step (put (put start 0 [0x04, 0x02, 0, 0x80, 0x01, 0, 0, 0, 0, 0, 0, 0, 0, 0, 0, 0, 0, 0, 0])
      0x180 [0xff]))).map (fun t => Memory.load t.mem 0x180 3) = some [0x00, 0x01, 0x00] := by decide

/-- A2: wrap. -/
theorem test_step_inc_wraps :
    (nextOf (step (setReg (put start 0 [0x04, 0x20, 0, 0x01, 0, 0, 0, 0, 0, 0, 0, 0, 0, 0, 0, 0, 0, 0, 0])
      1 0xFFFFFFFFFFFFFFFF))).map (fun t => t.regs[1]) = some 0 := by decide

/-- A6. -/
theorem test_step_dec_memory :
    (nextOf (step (setReg (put start 0 [0x05, 0x22, 0, 0x01, 0, 0, 0, 0, 0, 0, 0, 0, 0, 0, 0, 0, 0, 0, 0])
      1 0x180))).map (fun t => Memory.load t.mem 0x17f 10)
      = some [0, 0xff, 0xff, 0xff, 0xff, 0xff, 0xff, 0xff, 0xff, 0] := by decide

/-- K1. -/
theorem test_step_push :
    (nextOf (step (setReg (put start 0 [0x06, 0x10, 0, 0, 0, 0, 0, 0, 0, 0, 0, 0x03, 0, 0, 0, 0, 0, 0, 0])
      3 0x1122334455667788))).map (fun t => (Memory.load t.mem 0x100 8, t.sp))
      = some ([0x88, 0x77, 0x66, 0x55, 0x44, 0x33, 0x22, 0x11], 0x108) := by decide

/-- K6: the source is checked before the slot. -/
theorem test_step_push_source_first :
    (stepAction { put start 0 [0x06, 0x10, 0, 0, 0, 0, 0, 0, 0, 0, 0, 0x08, 0, 0, 0, 0, 0, 0, 0] with sp := 0x1F9 }).1
      = .faulted (some .badRegisterIndex) 0x13 0x1F9 := by decide

/-- K10: the pop at `sp = 8` reads the record's own first bytes. -/
theorem test_step_pop_at_eight :
    (nextOf (step { put start 0 [0x07, 0x20, 0, 0, 0, 0, 0, 0, 0, 0, 0, 0, 0, 0, 0, 0, 0, 0, 0] with sp := 8 })).map
      (fun t => (t.regs[0], t.sp)) = some (0x2007, 0) := by decide

/-- K16: the slot is checked before the constant destination, and `sp - 8` wraps out of range. -/
theorem test_step_pop_slot_first :
    (stepAction { put start 0 [0x07, 0x08, 0, 0x01, 0, 0, 0, 0, 0, 0, 0, 0, 0, 0, 0, 0, 0, 0, 0] with sp := 0 }).1
      = .faulted (some .memoryAccessOutOfRange) 0x13 0 := by decide

/-- C3: a call through the slot it pushes reads the pushed value. -/
theorem test_step_call_own_slot :
    (nextOf (step (put (put start 0 [0x08, 0x02, 0, 0x00, 0x01, 0, 0, 0, 0, 0, 0, 0, 0, 0, 0, 0, 0, 0, 0])
      0x100 [0x55, 0x55]))).map (fun t => (t.ip, t.sp, Memory.load t.mem 0x100 2)) = some (0x13, 0x108, [0x13, 0]) := by
  decide

/-- C6: the slot is checked before the register index. -/
theorem test_step_call_slot_first :
    (stepAction { put start 0 [0x08, 0x20, 0, 0x08, 0, 0, 0, 0, 0, 0, 0, 0, 0, 0, 0, 0, 0, 0, 0] with sp := 0x1F9 }).1
      = .faulted (some .memoryAccessOutOfRange) 0x13 0x1F9 := by decide

/-- C10. -/
theorem test_step_ret :
    (nextOf (step { put (put start 76 [0x09, 0, 0, 0, 0, 0, 0, 0, 0, 0, 0, 0, 0, 0, 0, 0, 0, 0, 0]) 0x100 [0x26]
      with ip := 76, sp := 0x108 })).map (fun t => (t.ip, t.sp)) = some (0x26, 0x100) := by decide

/-- C12. -/
theorem test_step_ret_above_memory :
    (stepAction { put start 0 [0x09, 0, 0, 0, 0, 0, 0, 0, 0, 0, 0, 0, 0, 0, 0, 0, 0, 0, 0] with sp := 0x201 }).1
      = .faulted (some .memoryAccessOutOfRange) 0x13 0x201 := by decide

/-- B7 and B8: the last record that fits, and one byte further. -/
theorem test_step_fetch_bounds :
    (stepAction { start with ip := 0x1EE }).1 = .faulted (some .memoryAccessOutOfRange) 0x1EE 0x100 ∧
    (stepAction { start with ip := 0x1ED }).1 = .executed := by decide

/-- B36: with a vector installed the fault is hooked and the core goes on. -/
theorem test_step_hooked :
    stepAction (put vectored 0 [0x01, 0x30, 0, 0, 0, 0, 0, 0, 0, 0, 0, 0x08, 0, 0, 0, 0, 0, 0, 0]) =
      (.hooked (some .badRegisterIndex) 0x13 0x100,
       { put vectored 0 [0x01, 0x30, 0, 0, 0, 0, 0, 0, 0, 0, 0, 0x08, 0, 0, 0, 0, 0, 0, 0] with
         ip := 0x13, cycles := 1, phase := .started,
         faultRecord := { valid := true, kind := some .badRegisterIndex, faultIp := 0x13, faultSp := 0x100 } }) := by
  decide

/-- M6: the three narrower reads of the word of M1. -/
theorem test_mixed_widths :
    (memWrite start 0x1F8 .w8 0x0807060504030201).map (fun t => (memRead t 0x1F8 .w4, memRead t 0x1FC .w2, memRead t 0x1FF .w1))
      = .ok (.ok 0x04030201, .ok 0x0605, .ok 0x08) := by decide

/-! ### Witnesses: states and operands that meet the hypotheses of each statement, at the boundaries of its clauses -/

/-- The decoded fields of a record with this opcode and these flags. -/
def recordOf (opcode flags : Byte) : Record :=
  { opcode := opcode, flags := flags, sizeSrc := 0xA, sizeDst := 0x5, op1 := 3, op2 := 4 }

theorem witness_RecordBytesAreLossless_and_RecordFieldsAtLayoutBits :
    (List.replicate 19 (0xff : Byte)).length = 19 ∧ (List.replicate 18 (0xff : Byte)).length < 19 := by decide

theorem witness_OpcodeMapSelectsInstruction :
    ∀ o ∈ [(0x00 : Byte), 0x01, 0x02, 0x03, 0x04, 0x05, 0x06, 0x07, 0x08, 0x09],
      (recordOf o 0x3f).reservedFlags = 0 ∧ (recordOf o 0x3f).opcode = o := by decide

theorem witness_IllegalRecordsRejectedOpcodeFirst :
    0x0A ≤ (recordOf 0x0A 0xc0).opcode.toNat ∧
    ((recordOf 0x09 0x40).opcode.toNat < 0x0A ∧ (recordOf 0x09 0x40).reservedFlags ≠ 0) ∧
    ((recordOf 0x09 0x3f).opcode.toNat < 0x0A ∧ (recordOf 0x09 0x3f).reservedFlags = 0) := by decide

/-- One flags byte for each of the eight combinations of each role's three bits. -/
theorem witness_OperandModePriority :
    (∀ m c g : Bool, ∃ f ∈ [(0x00 : Byte), 0x01, 0x04, 0x05, 0x10, 0x11, 0x14, 0x15],
      f.getLsbD 0 = m ∧ f.getLsbD 2 = c ∧ f.getLsbD 4 = g) ∧
    (∀ m c g : Bool, ∃ f ∈ [(0x00 : Byte), 0x02, 0x08, 0x0a, 0x20, 0x22, 0x28, 0x2a],
      f.getLsbD 1 = m ∧ f.getLsbD 3 = c ∧ f.getLsbD 5 = g) := by decide

/-- Two `push` records that differ in every field the opcode ignores. -/
theorem witness_UnusedFieldsAreIgnored :
    let r : Record := { opcode := 0x06, flags := 0x10, sizeSrc := 0, sizeDst := 0, op1 := 0, op2 := 3 }
    let r' : Record := { opcode := 0x06, flags := 0x3a, sizeSrc := 0xF, sizeDst := 8, op1 := 0x99, op2 := 3 }
    r ≠ r' ∧ r.opcode = r'.opcode ∧ r.reservedFlags = r'.reservedFlags ∧
    (r.opcode.toNat ∈ [0x01, 0x03, 0x04, 0x05, 0x07, 0x08] →
      r.flags.getLsbD 1 = r'.flags.getLsbD 1 ∧ r.flags.getLsbD 3 = r'.flags.getLsbD 3 ∧
        r.flags.getLsbD 5 = r'.flags.getLsbD 5 ∧ r.op1 = r'.op1) ∧
    (r.opcode.toNat ∈ [0x01, 0x06] →
      r.flags.getLsbD 0 = r'.flags.getLsbD 0 ∧ r.flags.getLsbD 2 = r'.flags.getLsbD 2 ∧
        r.flags.getLsbD 4 = r'.flags.getLsbD 4 ∧ r.op2 = r'.op2) := by decide

theorem witness_BoundsPredicateIsUnbounded :
    (1 ≤ 1 ∧ InRange start 0x1FF 1 ∧ ¬ InRange start 0x200 1) ∧
    (1 ≤ 8 ∧ 2 ^ 64 ≤ (0xFFFFFFFFFFFFFFF8 : Word).toNat + 8) := by decide

theorem witness_MemReadIsLittleEndianSum_and_MemWriteStoresLowBytes :
    InRange start 0x1F8 Width.w8.bytes ∧ ¬ InRange start 0x1F9 Width.w8.bytes ∧
    (0x1F8 : Word).toNat + Width.w8.bytes ≤ 0x200 ∧ 7 < Width.w8.bytes := by decide

theorem witness_MixedWidthReadAfterWrite :
    InRange start 0x1F8 Width.w8.bytes ∧ 7 + Width.w1.bytes ≤ Width.w8.bytes ∧
    (0x1FF : Word).toNat = (0x1F8 : Word).toNat + 7 := by decide

theorem witness_GeneralRegisterTakesWholeIndex :
    (7 : Word).toNat = (7 : Fin 8).val ∧ 8 ≤ (8 : Word).toNat ∧ 8 ≤ (0xFFFFFFFFFFFFFFFF : Word).toNat := by decide

theorem witness_LocateResolvesEveryMode :
    8 ≤ (8 : Word).toNat ∧ (7 : Word).toNat = (7 : Fin 8).val ∧
    InRange (setReg start 7 0x1F8) (setReg start 7 0x1F8).regs[(7 : Fin 8)] 8 ∧
    ¬ InRange (setReg start 7 0x1F9) (setReg start 7 0x1F9).regs[(7 : Fin 8)] 8 ∧
    InRange start 0x1F8 8 ∧ ¬ InRange start 0x1F9 8 := by decide

theorem witness_LocatedAccessCannotFault :
    locate start (.reg 7) .write = .ok (.reg 7) ∧ locate start (.memAbs 0x1F8) .write = .ok (.mem 0x1F8) ∧
    locate start (.const 5) .read = .ok (.imm 5) := by decide

theorem witness_NopStepOnlyAdvances :
    Fetches { start with ip := 0x1ED } ∧ InRange { start with ip := 0x1ED } 0x1ED 19 ∧
    opcodeByte { start with ip := 0x1ED } = 0x00 ∧ (flagsByte { start with ip := 0x1ED }).extractLsb' 6 2 = 0 := by decide

theorem witness_MovCopiesSourceToDestination :
    locate start (.memAbs 0x1F8) .read = .ok (.mem 0x1F8) ∧ locate start (.reg 7) .write = .ok (.reg 7) := by decide

theorem witness_HltStepSetsHaltBit :
    Fetches (put start 0 [0x02, 0x3f]) ∧ InRange (put start 0 [0x02, 0x3f]) (put start 0 [0x02, 0x3f]).ip 19 ∧
    opcodeByte (put start 0 [0x02, 0x3f]) = 0x02 ∧ (flagsByte (put start 0 [0x02, 0x3f])).extractLsb' 6 2 = 0 := by decide

theorem witness_JmpSetsInstructionPointer :
    locate start (.const 0xFFFFFFFFFFFFFFFF) .read = .ok (.imm 0xFFFFFFFFFFFFFFFF) ∧
    locate start (.memAbs 0x1F8) .read = .ok (.mem 0x1F8) := by decide

theorem witness_IncAddsOneModulo_and_DecSubtractsOneModulo :
    locate start (.memAbs 0x1F8) .write = .ok (.mem 0x1F8) ∧ locate start (.reg 0) .write = .ok (.reg 0) := by decide

theorem witness_PushStoresAndMovesUp :
    locate { start with sp := 0x1F8 } (.const 1) .read = .ok (.imm 1) ∧ InRange { start with sp := 0x1F8 } 0x1F8 8 := by
  decide

theorem witness_PopLoadsAndMovesDown :
    (8 ≤ ({ start with sp := 8 } : State).sp.toNat ∧
      ({ start with sp := 8 } : State).sp.toNat ≤ start.cfg.memSize.toNat ∧
      locate { start with sp := 8 } (.reg 7) .write = .ok (.reg 7)) ∧
    (8 ≤ ({ start with sp := 0x200 } : State).sp.toNat ∧
      ({ start with sp := 0x200 } : State).sp.toNat ≤ start.cfg.memSize.toNat ∧
      locate { start with sp := 0x200 } (.memAbs 0x1F8) .write = .ok (.mem 0x1F8)) := by decide

theorem witness_CallPushesThenJumps :
    InRange { start with sp := 0x1F8 } 0x1F8 8 ∧ locate { start with sp := 0x1F8 } (.reg 7) .read = .ok (.reg 7) := by
  decide

theorem witness_RetPopsInstructionPointer :
    8 ≤ ({ start with sp := 8 } : State).sp.toNat ∧
    ({ start with sp := 0x200 } : State).sp.toNat ≤ start.cfg.memSize.toNat := by decide

/-- Each clause: a bad source; a good source with a bad destination; a bad read; a bad write; a bad slot above; a slot
below 8 and above the capacity; a good slot with a bad destination. -/
theorem witness_InstructionChecksInOrder :
    locate start (.reg 8) .read = .error .badRegisterIndex ∧
    (locate start (.const 1) .read = .ok (.imm 1) ∧
      locate start (.const 1) .write = .error .badOperandFlagCombination) ∧
    locate start .noMode .read = .error .badOperandFlagCombination ∧
    locate start (.memAbs 0x1F9) .write = .error .memoryAccessOutOfRange ∧
    ¬ InRange { start with sp := 0x1F9 } 0x1F9 8 ∧
    ({ start with sp := 7 } : State).sp.toNat < 8 ∧
    start.cfg.memSize.toNat < ({ start with sp := 0x201 } : State).sp.toNat ∧
    (8 ≤ ({ start with sp := 0x200 } : State).sp.toNat ∧
      ({ start with sp := 0x200 } : State).sp.toNat ≤ start.cfg.memSize.toNat ∧
      locate { start with sp := 0x200 } (.reg 9) .write = .error .badRegisterIndex) ∧
    (InRange start start.sp 8 ∧ locate start (.reg 8) .read = .error .badRegisterIndex) := by decide

/-- A completed form to a register, one to memory, and a raised one. -/
theorem witness_MovIncDecFrame :
    (nextOf (exec (.mov (.reg 7) (.const 1)) start)).isSome ∧
    ((nextOf (exec (.inc (.memAbs 0x1F8)) start)).isSome ∧
      locate start (.memAbs 0x1F8) .write = .ok (.mem 0x1F8)) ∧
    (nextOf (exec (.dec (.const 1)) start)).isSome := by decide

theorem witness_PushCallFrame :
    (nextOf (exec (.push (.const 1)) { start with sp := 0x1F8 })).isSome ∧
    (nextOf (exec (.call (.reg 8)) start)).isSome := by decide

theorem witness_PopFrame :
    (nextOf (exec (.pop (.reg 7)) start)).isSome ∧
    ((nextOf (exec (.pop (.memAbs 0x1F8)) start)).isSome ∧ locate start (.memAbs 0x1F8) .write = .ok (.mem 0x1F8)) := by
  decide

theorem witness_NopHltJmpRetFrame :
    (nextOf (exec .nop start)).isSome ∧ (nextOf (exec .hlt start)).isSome ∧
    (nextOf (exec (.jmp (.const 5)) start)).isSome ∧ (nextOf (exec .ret start)).isSome := by decide

theorem witness_RaiseFaultAppliesVectorPolicy : start.ivec = 0 ∧ vectored.ivec ≠ 0 := by decide

theorem witness_FetchFaultLeavesInstructionPointer :
    Fetches { start with ip := 0x1EE } ∧ ¬ InRange { start with ip := 0x1EE } 0x1EE 19 := by decide

theorem witness_IllegalOpcodeFaultsAfterAdvance :
    Fetches (put start 0 [0x0A]) ∧ InRange (put start 0 [0x0A]) 0 19 ∧
    0x0A ≤ (opcodeByte (put start 0 [0x0A])).toNat := by decide

theorem witness_ReservedFlagBitsFaultAfterAdvance :
    Fetches (put start 0 [0x09, 0x40]) ∧ InRange (put start 0 [0x09, 0x40]) 0 19 ∧
    (opcodeByte (put start 0 [0x09, 0x40])).toNat < 0x0A ∧
    (flagsByte (put start 0 [0x09, 0x40])).extractLsb' 6 2 ≠ 0 := by decide

/-- An unvectored fetch fault and a vectored illegal opcode. -/
theorem witness_FaultingStepIsPrecise :
    (Fetches { start with ip := 0x1EE } ∧ (stepAction { start with ip := 0x1EE }).1 ≠ .executed) ∧
    (Fetches (put vectored 0 [0x0A]) ∧ (stepAction (put vectored 0 [0x0A])).1 ≠ .executed) := by decide

/-- Each kind an instruction can raise and each way it comes about: a bad index of either form, no mode, a written
constant, each memory form, the slot above and the slot below. -/
theorem witness_FaultKindsByInstruction :
    effect (.inc (.memAbs 0x1F9)) start = .error .memoryAccessOutOfRange ∧
    effect (.jmp (.memReg 7)) (setReg start 7 0x1F9) = .error .memoryAccessOutOfRange ∧
    effect (.push (.const 1)) { start with sp := 0x1F9 } = .error .memoryAccessOutOfRange ∧
    effect (.pop (.reg 0)) { start with sp := 0x201 } = .error .memoryAccessOutOfRange ∧
    effect .ret { start with sp := 7 } = .error .memoryAccessOutOfRange ∧
    effect (.mov (.reg 8) (.const 1)) start = .error .badRegisterIndex ∧
    effect (.push (.memReg 8)) start = .error .badRegisterIndex ∧
    effect (.pop (.const 1)) start = .error .badOperandFlagCombination ∧
    effect (.jmp .noMode) start = .error .badOperandFlagCombination := by decide

theorem witness_WellFormedRaisesOnlyMemoryFault :
    (Instr.wellFormed (.inc (.memAbs 0x1F9)) = true ∧
      effect (.inc (.memAbs 0x1F9)) start = .error .memoryAccessOutOfRange) ∧
    Instr.wellFormed (.call (.reg 8)) = false := by decide

theorem witness_VectoredFetchFaultRepeats :
    Fetches { vectored with ip := 0x1EE } ∧ ({ vectored with ip := 0x1EE } : State).ivec ≠ 0 ∧
    ¬ InRange { vectored with ip := 0x1EE } 0x1EE 19 := by decide

theorem witness_StepRunsDecodedInstruction :
    Fetches { start with ip := 0x1ED } ∧ InRange { start with ip := 0x1ED } 0x1ED 19 ∧
    decode (Memory.load start.mem 0x1ED 19) = .ok (.nop, []) := by decide

theorem witness_HaltedAndFaultedStepsDoNothing_and_HaltedCoreStaysAsItIs :
    (start.setHalt.runState = .running ∧ start.setHalt.halted = true) ∧
    (raiseFault .invalidOpcode start).runState = .faulted := by decide

theorem witness_StepAnswersNextUnlessFaulted_and_StepActionAgreesWithStep :
    start.runState = .running ∧ (raiseFault .invalidOpcode start).runState = .faulted := by decide

/-- A fetching and a halted step. -/
theorem witness_StepCountsFetchesAndKeepsParameters :
    ((nextOf (step start)).isSome ∧ start.halted = false) ∧
    ((nextOf (step start.setHalt)).isSome ∧ start.setHalt.halted = true) := by decide

theorem witness_OnlyHltWritesFlags :
    (nextOf (step (put start 0 [0x02]))).map (fun t => t.flags) = some 1 ∧
    (nextOf (step start)).map (fun t => t.flags) = some 0 := by decide

/-- `sp` stays, goes up (a push of a constant) and down (a return). -/
theorem witness_StackPointerMovesOneSlot :
    (nextOf (step start)).map (fun t => t.sp) = some 0x100 ∧
    (nextOf (step (put start 0 [0x06, 0x04]))).map (fun t => t.sp) = some 0x108 ∧
    (nextOf (step (put start 0 [0x09]))).map (fun t => t.sp) = some 0xF8 := by decide

/-- Reset meets the invariant, so the hypotheses of the invariant statements are met at `start`. -/
theorem witness_inv_start : Inv start :=
  { memoryCanonical := by decide
    memoryInside := by decide
    reservedFlags := by decide
    vectorFixed := by decide
    recordConsistent := by decide
    faultedTerminal := by decide
    notStarted := by decide }

theorem witness_StepKeepsInvariant : Inv start ∧ (nextOf (step start)).isSome :=
  ⟨witness_inv_start, by decide⟩

theorem witness_HostActionsKeepInvariant : Inv start ∧ ∃ t, loadAction [0x02] start = .ok t :=
  ⟨witness_inv_start, _, rfl⟩

/-- In a memory of 2 bytes, an image of 2 is accepted and one of 3 is not. -/
theorem witness_LoadCopiesImageOnce_capacity :
    let s := State.resetWith { memSize := 2, spReset := 0, ivecReset := 0 }
    (s.phase = .afterReset ∧ 1 ≤ [(0x02 : Byte), 0].length ∧ [(0x02 : Byte), 0].length ≤ s.cfg.memSize.toNat) ∧
    ¬ ([(0x02 : Byte), 0, 0].length ≤ s.cfg.memSize.toNat) := by decide

/-- An image of one byte is accepted, an empty one and a second one are not, and a step that fetches answers next. -/
theorem witness_LoadCopiesImageOnce :
    (start.phase = .afterReset ∧ 1 ≤ [(0x02 : Byte)].length ∧ [(0x02 : Byte)].length ≤ start.cfg.memSize.toNat) ∧
    ¬ (1 ≤ ([] : List Byte).length) ∧ (∃ t, loadAction [0x02] start = .ok t ∧ t.phase ≠ .afterReset) ∧
    (Fetches start ∧ (nextOf (step start)).isSome) :=
  ⟨by decide, by decide, ⟨_, rfl, by decide⟩, by decide⟩

/-- Each outcome of a step, and each ending of a run: the budget, `Halted`, `Faulted`. -/
theorem witness_RunBudgetsAddUp :
    (stepAction start.setHalt).1 = .halted ∧ (stepAction start).1 = .executed ∧
    (stepAction (put start 0 [0x0A])).1 = .faulted (some .invalidOpcode) 0x13 0x100 ∧
    (stepAction (put vectored 0 [0x0A])).1 = .hooked (some .invalidOpcode) 0x13 0x100 ∧
    (runAction 1 start).1 = .budgetExhausted ∧ (runAction 2 (put start 0 [0x02])).1 = .halted ∧
    (runAction 1 (put start 0 [0x0A])).1 = .faulted (some .invalidOpcode) 0x13 0x100 := by decide

theorem witness_ObserveCopiesEveryPiece : 0x1FF < start.cfg.memSize.toNat := by decide

theorem witness_PushThenPopRestores :
    locate { start with sp := 0x1F8 } (.const 1) .read = .ok (.imm 1) ∧ InRange { start with sp := 0x1F8 } 0x1F8 8 ∧
    (7 : Word).toNat = (7 : Fin 8).val ∧ (nextOf (exec (.push (.const 1)) { start with sp := 0x1F8 })).isSome := by decide

theorem witness_CallThenReturnResumes :
    InRange { start with sp := 0x1F8 } 0x1F8 8 ∧ locate { start with sp := 0x1F8 } (.const 0) .read = .ok (.imm 0) ∧
    (nextOf (exec (.call (.const 0)) { start with sp := 0x1F8 })).isSome := by decide

theorem witness_StoredRecordIsExecuted :
    Fetches { start with ip := 0x1ED } ∧ InRange { start with ip := 0x1ED } 0x1ED 19 := by decide

theorem witness_SelfOverwritingMovRunsAsDecoded :
    Fetches (put start 0 [0x01, 0x06]) ∧ InRange (put start 0 [0x01, 0x06]) 0 19 ∧
    decode (Memory.load (put start 0 [0x01, 0x06]).mem 0 19) = .ok (.mov (.memAbs 0) (.const 0), []) := by decide

end Sys2Proof.Tests
end

section
/-! Proofs of the statements about the state (10_state.md). -/

namespace Sys2Proof.Machine

open Sys2Proof

/-- Settles O13. The two clauses are the two answers `generalRegister` can give, each read from its cause (R21). -/
theorem generalRegisterTakesWholeIndex : Obligations.GeneralRegisterTakesWholeIndex := by
  intro index
  constructor
  · intro i hindex
    exact generalRegister_eq_ok.mpr hindex
  · intro hlarge
    exact generalRegister_eq_error.mpr ⟨hlarge, rfl⟩

end Sys2Proof.Machine
end

section
/-! Facts about checked memory access (20_memory.md): what a refused access answers, the number a load stands for, and
the bytes a write leaves. -/

namespace Sys2Proof

/-- Up to eight bytes fit a word, so the word they are read as loses nothing. -/
theorem toNat_leWord {bs : List Byte} (h : bs.length ≤ 8) : (leWord bs).toNat = leNat bs := by
  have hlt : leNat bs < 2 ^ 64 := calc
    leNat bs < 256 ^ bs.length := leNat_lt bs
    _ ≤ 256 ^ 8 := Nat.pow_le_pow_right (by decide) h
    _ = 2 ^ 64 := by decide
  rw [leWord, BitVec.toNat_ofNat, Nat.mod_eq_of_lt hlt]

/-- The weight of byte `k`, as the byte lists and as the bit positions write it. -/
theorem pow_byteWeight (k : Nat) : 256 ^ k = 2 ^ (8 * k) := by
  rw [Nat.pow_mul]

/-- Byte `k` of a word written out little-endian is its bits `8k + 7 : 8k`. -/
theorem getElem_leBytes_word (n : Nat) (v : Word) (k : Nat) (h : k < (leBytes n v.toNat).length) :
    (leBytes n v.toNat)[k] = v.extractLsb' (8 * k) 8 := by
  rw [getElem_leBytes, BitVec.extractLsb', Nat.shiftRight_eq_div_pow, pow_byteWeight]

end Sys2Proof

namespace Sys2Proof.Machine

open Sys2Proof

theorem Width.bytes_le_eight (n : Width) : n.bytes ≤ 8 := by
  cases n <;> decide

theorem memRead_eq_error {s : State} {a : Word} {n : Width} {k : FaultKind} :
    memRead s a n = .error k ↔ ¬ InRange s a n.bytes ∧ k = .memoryAccessOutOfRange := by
  unfold memRead
  split <;> simp_all [eq_comm]

theorem memWrite_eq_error {s : State} {a : Word} {n : Width} {v : Word} {k : FaultKind} :
    memWrite s a n v = .error k ↔ ¬ InRange s a n.bytes ∧ k = .memoryAccessOutOfRange := by
  unfold memWrite
  split <;> simp_all [eq_comm]

/-- The little-endian number of a load is the weighted sum of the bytes it reads (R42). -/
theorem leNat_load (m : Memory) (a n : Nat) :
    leNat (Memory.load m a n) = ((List.range n).map fun k => (Memory.byte m (a + k)).toNat * 2 ^ (8 * k)).sum := by
  induction n with
  | zero => rfl
  | succ n ih =>
    have hlast : leNat (Memory.load m (a + n) 1) = (Memory.byte m (a + n)).toNat := by simp [Memory.load]
    rw [load_add, leNat_append, length_load, ih, hlast, pow_byteWeight, List.range_succ, List.map_append,
      List.sum_append, List.map_singleton, List.sum_singleton, Nat.mul_comm]

/-- What a read in range returns, as a number: no width overflows the word. -/
theorem toNat_readMem (s : State) (a : Word) (n : Width) :
    (readMem s a n).toNat =
      ((List.range n.bytes).map fun k => (Memory.byte s.mem (a.toNat + k)).toNat * 2 ^ (8 * k)).sum := by
  rw [readMem, toNat_leWord (by rw [length_load]; exact n.bytes_le_eight), leNat_load]

/-- A write puts byte `k` of the value at `a + k` (R43). -/
theorem byte_writeMem_inside (s : State) (a : Word) (n : Width) (v : Word) {k : Nat} (h : k < n.bytes) :
    Memory.byte (writeMem s a n v).mem (a.toNat + k) = v.extractLsb' (8 * k) 8 := by
  rw [writeMem_mem, byte_store_inside _ _ _ _ (by rwa [length_leBytes]), getElem_leBytes_word]

/-- A write leaves every byte outside its range alone. -/
theorem byte_writeMem_outside (s : State) (a : Word) (n : Width) (v : Word) {b : Nat}
    (h : b < a.toNat ∨ a.toNat + n.bytes ≤ b) : Memory.byte (writeMem s a n v).mem b = Memory.byte s.mem b := by
  rw [writeMem_mem, byte_store_outside _ _ _ _ (by rwa [length_leBytes])]

end Sys2Proof.Machine
end

section
/-! Proofs of the statements about memory (20_memory.md). -/

namespace Sys2Proof.Machine

open Sys2Proof

/-- Settles O10. The two clauses are the two answers of `memRead`; the value is the little-endian number of the loaded
bytes, which no width lets overflow (R42). -/
theorem memReadIsLittleEndianSum : Obligations.MemReadIsLittleEndianSum := by
  intro s addr n
  constructor
  · intro hout
    exact memRead_eq_error.mpr ⟨hout, rfl⟩
  · intro hin
    exact ⟨readMem s addr n, memRead_eq_ok.mpr ⟨hin, rfl⟩, toNat_readMem s addr n⟩

/-- Settles O11. The two clauses are the two answers of `memWrite`; the state it answers differs in memory alone, and
there only in the bytes it covers (R43). -/
theorem memWriteStoresLowBytes : Obligations.MemWriteStoresLowBytes := by
  intro s addr n v
  constructor
  · intro hout
    exact memWrite_eq_error.mpr ⟨hout, rfl⟩
  · intro hin
    refine ⟨writeMem s addr n v, memWrite_eq_ok.mpr ⟨hin, rfl⟩, rfl, ?_, ?_⟩
    · intro k hk
      exact byte_writeMem_inside s addr n v hk
    · intro b hb
      exact byte_writeMem_outside s addr n v hb

/-- Settles O9. With at least one byte the last one decides both bounds, and the capacity is a word, so no end past
`2 ^ 64` is within it (R41, D27). -/
theorem boundsPredicateIsUnbounded : Obligations.BoundsPredicateIsUnbounded := by
  intro s addr n hn
  have hcapacity : s.cfg.memSize.toNat < 2 ^ 64 := s.cfg.memSize.isLt
  constructor
  · constructor
    · intro hin
      exact ⟨by omega, by omega⟩
    · rintro ⟨-, hlast⟩
      show addr.toNat + n ≤ s.cfg.memSize.toNat
      omega
  · intro hend hin
    omega

end Sys2Proof.Machine
end

section
/-! Proofs of the statements about the encoding (30_encoding.md). -/

namespace Sys2Proof.Machine

open Sys2Proof

/-- A memory location the resolver answers has its 8 bytes in range: the check `ReadLoc` and `WriteLoc` rely on
(R72, R73, R77). -/
theorem inRange_of_locate_mem {s : State} {o : Operand} {k : Access} {a : Word} (h : locate s o k = .ok (.mem a)) :
    InRange s a 8 := by
  rcases locate_ok_cases h with ⟨_, _, _, _, hl⟩ | ⟨_, _, hr, hl⟩ | ⟨_, _, _, _, hr, hl⟩ | ⟨_, _, _, hl⟩
  · cases hl
  · cases hl; exact hr
  · cases hl; exact hr
  · cases hl

/-- A constant is answered for a read alone (R74). -/
theorem eq_read_of_locate_imm {s : State} {o : Operand} {k : Access} {v : Word} (h : locate s o k = .ok (.imm v)) :
    k = .read := by
  cases k with
  | read => rfl
  | write =>
    rcases locate_write_cases h with ⟨_, hl⟩ | ⟨_, hl, _⟩
    · cases hl
    · cases hl

/-- Settles O15. Register and constant accesses compute to what is stated; a memory access passes the check the
resolver has already made (R77). -/
theorem locatedAccessCannotFault : Obligations.LocatedAccessCannotFault := by
  intro s o k l h
  refine ⟨?_, ?_, ?_⟩
  · rintro i rfl
    exact ⟨rfl, fun _ => rfl⟩
  · rintro a rfl
    have hin : InRange s a Width.w8.bytes := inRange_of_locate_mem h
    exact ⟨memRead_eq_ok.mpr ⟨hin, rfl⟩, fun v => memWrite_eq_ok.mpr ⟨hin, rfl⟩⟩
  · rintro v rfl
    exact ⟨eq_read_of_locate_imm h, rfl⟩

end Sys2Proof.Machine
end

section
/-! Proofs of the statements about faults (60_exceptions.md). -/

namespace Sys2Proof.Machine

open Sys2Proof

/-- With no vector installed a raise records the fault and leaves the core Faulted (R157, R158). -/
theorem raiseFault_of_ivec_eq_zero {s : State} (k : FaultKind) (h : s.ivec = 0) :
    raiseFault k s =
      { s with
        faultRecord := { valid := true, kind := some k, faultIp := s.ip, faultSp := s.sp }
        runState := .faulted } := by
  rw [raiseFault, if_pos h]

/-- With a vector installed a raise records the fault and writes nothing else (R157, R159). -/
theorem raiseFault_of_ivec_ne_zero {s : State} (k : FaultKind) (h : s.ivec ≠ 0) :
    raiseFault k s =
      { s with faultRecord := { valid := true, kind := some k, faultIp := s.ip, faultSp := s.sp } } := by
  rw [raiseFault, if_neg h]

/-- With no vector installed the outcome of a raise is `Faulted` (R158). -/
theorem raiseOutcome_of_ivec_eq_zero {s : State} (k : FaultKind) (h : s.ivec = 0) :
    raiseOutcome k s = (.faulted (some k) s.ip s.sp, raiseFault k s) := by
  rw [raiseOutcome, if_pos h]

/-- With a vector installed the outcome of a raise is `Hooked` (R159). -/
theorem raiseOutcome_of_ivec_ne_zero {s : State} (k : FaultKind) (h : s.ivec ≠ 0) :
    raiseOutcome k s = (.hooked (some k) s.ip s.sp, raiseFault k s) := by
  rw [raiseOutcome, if_neg h]

/-- Settles O31, by whether a vector is installed: that decides the outcome and whether `run_state` is written; the
state component is `raiseFault`'s in both cases (R157, D20, D21). -/
theorem raiseFaultAppliesVectorPolicy : Obligations.RaiseFaultAppliesVectorPolicy := by
  intro k s
  refine ⟨fun hnone => ?_, fun hvector => ?_, rfl⟩
  · rw [raiseOutcome_of_ivec_eq_zero k hnone, raiseFault_of_ivec_eq_zero k hnone]
  · rw [raiseOutcome_of_ivec_ne_zero k hvector, raiseFault_of_ivec_ne_zero k hvector]

end Sys2Proof.Machine
end

section
/-! The layout of the record (30_encoding.md R60, R61): three head bytes and two data words. -/

namespace Sys2Proof

/-- The record whose three head bytes and two data words are these (R61). -/
def Record.ofLayout (b0 b1 b2 : Byte) (xs ys : List Byte) : Record :=
  { opcode := b0
    flags := b1
    sizeSrc := b2.extractLsb' 0 4
    sizeDst := b2.extractLsb' 4 4
    op1 := leWord xs
    op2 := leWord ys }

/-- Nineteen bytes are three head bytes and two groups of eight. -/
theorem exists_layout {bs : List Byte} (h : bs.length = 19) :
    ∃ b0 b1 b2 xs ys, bs = b0 :: b1 :: b2 :: (xs ++ ys) ∧ xs.length = 8 ∧ ys.length = 8 := by
  obtain ⟨b0, b1, b2, tl, rfl⟩ : ∃ b0 b1 b2 tl, bs = b0 :: b1 :: b2 :: tl := by
    match bs, h with
    | b0 :: b1 :: b2 :: tl, _ => exact ⟨b0, b1, b2, tl, rfl⟩
  simp only [List.length_cons] at h
  refine ⟨b0, b1, b2, tl.take 8, tl.drop 8, by rw [List.take_append_drop], ?_, ?_⟩
  · rw [List.length_take]; omega
  · rw [List.length_drop]; omega

/-- The decoder takes the head bytes and the data words from their offsets and leaves what follows (R61, R80). -/
theorem ofBytes_layout (b0 b1 b2 : Byte) {xs ys : List Byte} (rest : List Byte) (hx : xs.length = 8)
    (hy : ys.length = 8) :
    Record.ofBytes (b0 :: b1 :: b2 :: (xs ++ (ys ++ rest))) = some (Record.ofLayout b0 b1 b2 xs ys, rest) := by
  have hlong : ¬ (b0 :: b1 :: b2 :: (xs ++ (ys ++ rest))).length < recordSize := by
    simp only [List.length_cons, List.length_append, recordSize]
    omega
  have hop1 : (xs ++ (ys ++ rest)).take 8 = xs := List.take_left' hx
  have htail : (xs ++ (ys ++ rest)).drop 8 = ys ++ rest := List.drop_left' hx
  have hop2 : (ys ++ rest).take 8 = ys := List.take_left' hy
  have hrest : (xs ++ (ys ++ rest)).drop 16 = rest := by
    rw [show 16 = 8 + 8 from rfl, ← List.drop_drop, htail, List.drop_left' hy]
  simp only [Record.ofBytes, if_neg hlong, Record.ofLayout, hop1, htail, hop2, hrest]

/-- The layout of a record's own bytes is the record (R61). -/
theorem ofLayout_toBytes (r : Record) :
    Record.ofLayout r.opcode r.flags (r.sizeDst ++ r.sizeSrc) (leBytes 8 r.op1.toNat) (leBytes 8 r.op2.toNat) = r := by
  have hsrc : (r.sizeDst ++ r.sizeSrc).extractLsb' 0 4 = r.sizeSrc := BitVec.extractLsb'_append_eq_right
  have hdst : (r.sizeDst ++ r.sizeSrc).extractLsb' 4 4 = r.sizeDst := BitVec.extractLsb'_append_eq_left
  simp only [Record.ofLayout, leWord_leBytes_word, hsrc, hdst]

/-- The bytes of a layout are the bytes it was made of (R61). -/
theorem toBytes_ofLayout (b0 b1 b2 : Byte) {xs ys : List Byte} (hx : xs.length = 8) (hy : ys.length = 8) :
    (Record.ofLayout b0 b1 b2 xs ys).toBytes = b0 :: b1 :: b2 :: (xs ++ ys) := by
  simp only [Record.ofLayout, Record.toBytes, nibbles_append, leBytes_leWord xs hx, leBytes_leWord ys hy]

/-- A record is read back from its bytes, whatever follows them. -/
theorem ofBytes_toBytes (r : Record) (rest : List Byte) : Record.ofBytes (r.toBytes ++ rest) = some (r, rest) := by
  have hread := ofBytes_layout r.opcode r.flags (r.sizeDst ++ r.sizeSrc) rest
    (length_leBytes 8 r.op1.toNat) (length_leBytes 8 r.op2.toNat)
  rw [ofLayout_toBytes] at hread
  simpa only [Record.toBytes, List.cons_append, List.append_assoc] using hread

theorem ofBytes_of_short {bs : List Byte} (h : bs.length < 19) : Record.ofBytes bs = none := if_pos h

theorem decode_of_ofBytes_none {bs : List Byte} (h : Record.ofBytes bs = none) : decode bs = .error .truncated := by
  rw [decode, h]

/-- Bytes that hold a record decode as the record does. -/
theorem decode_of_ofBytes_some {bs rest : List Byte} {r : Record} (h : Record.ofBytes bs = some (r, rest)) :
    decode bs = (decodeRecord r).map fun i => (i, rest) := by
  rw [decode, h]
  cases hr : decodeRecord r with
  | error e => simp [hr, Except.map]
  | ok i => simp [hr, Except.map]

/-- The canonical record of every instruction decodes to it (R67, R70, R85). -/
theorem decodeRecord_record (i : Instr) : decodeRecord i.record = .ok i := by
  cases i with
  | nop => exact Laws.RecordRoundTrip.nop
  | mov dst src => exact Laws.RecordRoundTrip.mov dst src
  | hlt => exact Laws.RecordRoundTrip.hlt
  | jmp dst => exact Laws.RecordRoundTrip.jmp dst
  | inc dst => exact Laws.RecordRoundTrip.inc dst
  | dec dst => exact Laws.RecordRoundTrip.dec dst
  | push src => exact Laws.RecordRoundTrip.push src
  | pop dst => exact Laws.RecordRoundTrip.pop dst
  | call dst => exact Laws.RecordRoundTrip.call dst
  | ret => exact Laws.RecordRoundTrip.ret

/-- Encoding followed by decoding gives the instruction and the bytes that follow. -/
theorem decode_encode_append (i : Instr) (rest : List Byte) : decode (encode i ++ rest) = .ok (i, rest) := by
  rw [encode, decode_of_ofBytes_some (ofBytes_toBytes i.record rest), decodeRecord_record]
  rfl

/-! ### The record as one number -/

/-- The number of a layout, by the weights of its parts. -/
theorem leNat_layout (b0 b1 b2 : Byte) {xs ys : List Byte} (hx : xs.length = 8) :
    leNat (b0 :: b1 :: b2 :: (xs ++ ys)) =
      b0.toNat + 2 ^ 8 * b1.toNat + 2 ^ 16 * b2.toNat + 2 ^ 24 * leNat xs + 2 ^ 88 * leNat ys := by
  simp only [leNat_cons, leNat_append, hx]
  ring

/-- The fields of a layout at the bits of the layout table (R61): each is its part of the number, the parts below it
being smaller than its weight. -/
theorem ofLayout_fields_at_bits {b0 b1 b2 : Byte} {xs ys : List Byte} {r : Record} {v : BitVec 152}
    (hr : r = Record.ofLayout b0 b1 b2 xs ys) (hv : v = BitVec.ofNat 152 (leNat (b0 :: b1 :: b2 :: (xs ++ ys))))
    (hx : xs.length = 8) :
    r.opcode = v.extractLsb' 0 8 ∧ r.flags = v.extractLsb' 8 8 ∧ r.sizeSrc = v.extractLsb' 16 4 ∧
      r.sizeDst = v.extractLsb' 20 4 ∧ r.op1 = v.extractLsb' 24 64 ∧ r.op2 = v.extractLsb' 88 64 := by
  have h0 := b0.isLt
  have h1 := b1.isLt
  have h2 := b2.isLt
  have hxs := leNat_lt xs
  rw [hx] at hxs
  simp only [hr, hv, Record.ofLayout, leWord, leNat_layout b0 b1 b2 hx]
  refine ⟨?_, ?_, ?_, ?_, ?_, ?_⟩
  all_goals
    apply BitVec.eq_of_toNat_eq
    simp only [BitVec.extractLsb', BitVec.toNat_ofNat, Nat.shiftRight_eq_div_pow]
    omega

end Sys2Proof
end

section
/-! Proofs of the statements about the encoding of instructions (30_encoding.md sections 1 to 5). -/

namespace Sys2Proof.Machine

open Sys2Proof

/-- Settles O1. The record is read back from its bytes, and the canonical record selects its instruction (R85). -/
theorem encodedInstructionDecodesBack : Obligations.EncodedInstructionDecodesBack := decode_encode_append

/-- Settles O2. Reading the bytes of a record, and writing the record of nineteen bytes, both go through the layout of
R61; fewer bytes fail the length check of R80. -/
theorem recordBytesAreLossless : Obligations.RecordBytesAreLossless := by
  refine ⟨ofBytes_toBytes, ?_, ?_⟩
  · intro bs hlen
    obtain ⟨b0, b1, b2, xs, ys, rfl, hx, hy⟩ := exists_layout hlen
    have hread := ofBytes_layout b0 b1 b2 [] hx hy
    rw [List.append_nil] at hread
    exact ⟨_, hread, toBytes_ofLayout b0 b1 b2 hx hy⟩
  · intro bs hshort
    have hnone := ofBytes_of_short hshort
    exact ⟨hnone, decode_of_ofBytes_none hnone⟩

/-- Settles O3. The bytes are split by the layout, and the weights of the parts are those of the bit positions (R61). -/
theorem recordFieldsAtLayoutBits : Obligations.RecordFieldsAtLayoutBits := by
  intro bs hlen
  obtain ⟨b0, b1, b2, xs, ys, rfl, hx, hy⟩ := exists_layout hlen
  have hread := ofBytes_layout b0 b1 b2 [] hx hy
  rw [List.append_nil] at hread
  exact ⟨_, hread, ofLayout_fields_at_bits rfl rfl hx⟩

end Sys2Proof.Machine
end

section
/-! The opcode map and the mode selection, by case (30_encoding.md R67, R69, R70). -/

namespace Sys2Proof

/-- A selected instruction whose reserved flag bits are 0 is decoded (R81). -/
theorem decodeRecord_of_instr {r : Record} {i : Instr} (hi : r.instr? = some i) (hres : r.reservedFlags = 0) :
    decodeRecord r = .ok i := by
  simp only [decodeRecord, hi, if_pos hres]

/-- A selected instruction whose reserved flag bits are not 0 is rejected (R64). -/
theorem decodeRecord_of_reserved {r : Record} {i : Instr} (hi : r.instr? = some i) (hres : r.reservedFlags ≠ 0) :
    decodeRecord r = .error .reservedFlagBits := by
  simp only [decodeRecord, hi, if_neg hres]

/-- Where no instruction is selected the opcode is rejected, whatever the flags (R68). -/
theorem decodeRecord_of_instr_none {r : Record} (hi : r.instr? = none) :
    decodeRecord r = .error (.invalidOpcode r.opcode) := by
  simp only [decodeRecord, hi]

/-- Mode selection by the three bits of a role: memory goes before constant, constant before register (R70). -/
theorem selectMode_priority (m c g : Bool) (w : Word) :
    (m = false → c = false → g = false → selectMode m c g w = .noMode) ∧
    (m = false → c = false → g = true → selectMode m c g w = .reg w) ∧
    (m = false → c = true → selectMode m c g w = .const w) ∧
    (m = true → g = false → selectMode m c g w = .memAbs w) ∧
    (m = true → g = true → selectMode m c g w = .memReg w) := by
  cases m <;> cases c <;> cases g <;> simp [selectMode]

/-- The selected instruction depends on the opcode and on the operands of the roles it uses (R69). -/
theorem instr_congr {r r' : Record} (ho : r.opcode = r'.opcode)
    (hdst : r.opcode.toNat ∈ [0x01, 0x03, 0x04, 0x05, 0x07, 0x08] → r.dst = r'.dst)
    (hsrc : r.opcode.toNat ∈ [0x01, 0x06] → r.src = r'.src) : r.instr? = r'.instr? := by
  unfold Record.instr?
  rw [← ho]
  split
  case h_2 h => rw [hdst (by simp [h]), hsrc (by simp [h])]
  case h_4 h => rw [hdst (by simp [h])]
  case h_5 h => rw [hdst (by simp [h])]
  case h_6 h => rw [hdst (by simp [h])]
  case h_7 h => rw [hsrc (by simp [h])]
  case h_8 h => rw [hdst (by simp [h])]
  case h_9 h => rw [hdst (by simp [h])]
  all_goals rfl

end Sys2Proof
end

section
/-! Proofs of the statements about what a record decodes to (30_encoding.md sections 1 to 3). -/

namespace Sys2Proof.Machine

open Sys2Proof

/-- Settles O4. The opcode selects the row, and the reserved flag bits are 0 (R67, R69). -/
theorem opcodeMapSelectsInstruction : Obligations.OpcodeMapSelectsInstruction := by
  intro r hres
  refine ⟨?_, ?_, ?_, ?_, ?_, ?_, ?_, ?_, ?_, ?_⟩
  all_goals
    intro ho
    exact decodeRecord_of_instr (by simp [Record.instr?, ho]) hres

/-- Settles O5. The opcode decides whether an instruction is selected, before the reserved flag bits are read
(R64, R68, R81). -/
theorem illegalRecordsRejectedOpcodeFirst : Obligations.IllegalRecordsRejectedOpcodeFirst := by
  intro r
  refine ⟨fun hillegal => ?_, fun hdefined hres => ?_, fun hdefined hres => ?_⟩
  · exact decodeRecord_of_instr_none (instr_of_illegal_opcode hillegal)
  · obtain ⟨i, hi, _⟩ := instr_of_defined_opcode hdefined
    exact decodeRecord_of_reserved hi hres
  · obtain ⟨i, hi, hop⟩ := instr_of_defined_opcode hdefined
    exact ⟨i, decodeRecord_of_instr hi hres, hop⟩

/-- Settles O6. Both roles select by the same priority, each from its own flag bits and data word (R63, R66, R70). -/
theorem operandModePriority : Obligations.OperandModePriority := by
  intro r
  constructor
  · rintro m c g rfl rfl rfl
    exact selectMode_priority _ _ _ r.op2
  · rintro m c g rfl rfl rfl
    exact selectMode_priority _ _ _ r.op1

/-- Settles O7. The used roles hold equal operands, so the two records select the same instruction; the two checks read
the opcode and the reserved flag bits alone (R65, R79). -/
theorem unusedFieldsAreIgnored : Obligations.UnusedFieldsAreIgnored := by
  intro r r' ho hres hdstFields hsrcFields
  have hdst : r.opcode.toNat ∈ [0x01, 0x03, 0x04, 0x05, 0x07, 0x08] → r.dst = r'.dst := by
    intro huse
    obtain ⟨hm, hc, hg, hw⟩ := hdstFields huse
    rw [Record.dst, Record.dst, hm, hc, hg, hw]
  have hsrc : r.opcode.toNat ∈ [0x01, 0x06] → r.src = r'.src := by
    intro huse
    obtain ⟨hm, hc, hg, hw⟩ := hsrcFields huse
    rw [Record.src, Record.src, hm, hc, hg, hw]
  rw [decodeRecord, decodeRecord, instr_congr ho hdst hsrc, ho, hres]

/-- Settles O8. Each record is closed, and the decoder is evaluated on it. -/
theorem specExampleRecordsDecode : Obligations.SpecExampleRecordsDecode := by
  refine ⟨?_, ?_, ?_, ?_, ?_⟩
  all_goals decide

end Sys2Proof.Machine
end

section
/-! Proofs of the statements about memory accesses of mixed width and about the resolver (20_memory.md section 2,
30_encoding.md section 3). -/

namespace Sys2Proof.Machine

open Sys2Proof

/-- Loading `n` of the `m` bytes just stored, from offset `j` on, gives the low bytes of the value shifted by `j`. -/
theorem load_store_leBytes (mem : Memory) (a m v : Nat) {j n : Nat} (h : j + n ≤ m) :
    Memory.load (Memory.store mem a (leBytes m v)) (a + j) n = leBytes n (v / 256 ^ j) := by
  apply List.ext_getElem
  · rw [length_load, length_leBytes]
  · intro k hk hk'
    rw [length_load] at hk
    have hin : j + k < (leBytes m v).length := by rw [length_leBytes]; omega
    rw [getElem_load, Nat.add_assoc, byte_store_inside _ _ _ _ hin, getElem_leBytes, getElem_leBytes, Nat.pow_add,
      Nat.div_div_eq_div_mul]

/-- A read inside the bytes just written gives the corresponding bits of the value (R46). -/
theorem readMem_writeMem_inside (s : State) {a b : Word} {m n : Width} {j : Nat} (v : Word)
    (hj : j + n.bytes ≤ m.bytes) (hb : b.toNat = a.toNat + j) :
    readMem (writeMem s a m v) b n = BitVec.ofNat 64 (v.toNat / 2 ^ (8 * j) % 2 ^ (8 * n.bytes)) := by
  rw [readMem, writeMem_mem, hb, load_store_leBytes _ _ _ _ hj, leWord, leNat_leBytes, pow_byteWeight, pow_byteWeight]

/-- Settles O12. Both accesses are in range, because the read lies inside the write. -/
theorem mixedWidthReadAfterWrite : Obligations.MixedWidthReadAfterWrite := by
  intro s a b m n v j hin hj hb
  have hread : InRange (writeMem s a m v) b n.bytes := by
    show b.toNat + n.bytes ≤ s.cfg.memSize.toNat
    omega
  exact ⟨writeMem s a m v, memWrite_eq_ok.mpr ⟨hin, rfl⟩,
    memRead_eq_ok.mpr ⟨hread, (readMem_writeMem_inside s v hj hb).symm⟩⟩

/-! ### What `locate` answers, form by form -/

theorem locateMem_of_inRange {s : State} {a : Word} (h : InRange s a 8) : locateMem s a = .ok (.mem a) := if_pos h

theorem locateMem_of_not_inRange {s : State} {a : Word} (h : ¬ InRange s a 8) :
    locateMem s a = .error .memoryAccessOutOfRange := if_neg h

theorem locate_reg {s : State} {w : Word} {i : Fin 8} (k : Access) (h : w.toNat = i.val) :
    locate s (.reg w) k = .ok (.reg i) := by
  simp only [locate, generalRegister_eq_ok.mpr h]

theorem locate_memReg {s : State} {w : Word} {i : Fin 8} (k : Access) (h : w.toNat = i.val) :
    locate s (.memReg w) k = locateMem s s.regs[i] := by
  simp only [locate, generalRegister_eq_ok.mpr h, readReg_general]

theorem locate_reg_of_large {s : State} {w : Word} (k : Access) (h : 8 ≤ w.toNat) :
    locate s (.reg w) k = .error .badRegisterIndex := by
  simp only [locate, generalRegister_eq_error.mpr ⟨h, rfl⟩]

theorem locate_memReg_of_large {s : State} {w : Word} (k : Access) (h : 8 ≤ w.toNat) :
    locate s (.memReg w) k = .error .badRegisterIndex := by
  simp only [locate, generalRegister_eq_error.mpr ⟨h, rfl⟩]

/-- Settles O14, form by form: the register check comes before the bounds check, and the kind matters to a constant
alone (R71 to R76). -/
theorem locateResolvesEveryMode : Obligations.LocateResolvesEveryMode := by
  intro s k w
  refine ⟨fun hlarge => ?_, fun i hi => ⟨?_, fun hin => ?_, fun hout => ?_⟩, fun hin => ?_, fun hout => ?_,
    rfl, rfl, rfl⟩
  · exact ⟨locate_memReg_of_large k hlarge, locate_reg_of_large k hlarge⟩
  · exact locate_reg k hi
  · exact (locate_memReg k hi).trans (locateMem_of_inRange hin)
  · exact (locate_memReg k hi).trans (locateMem_of_not_inRange hout)
  · exact locateMem_of_inRange hin
  · exact locateMem_of_not_inRange hout

end Sys2Proof.Machine
end

section
/-! What each effect answers, forward: its result when every check holds, and the fault of its first failing check, in
the order of 60_exceptions.md R163. -/

namespace Sys2Proof.Machine

open Sys2Proof

section Effects

variable {s t : State} {dst src : Operand} {a b : Location} {k : FaultKind} {i : Instr}

theorem exec_of_effect_ok (h : effect i s = .ok t) : exec i s = .next t := by
  rw [exec_eq_conclude, h, conclude_ok]

theorem exec_of_effect_error (h : effect i s = .error k) : exec i s = .next (raiseFault k s) := by
  rw [exec_eq_conclude, h, conclude_error]

theorem effect_mov_of_located (ha : locate s src .read = .ok a) (hb : locate s dst .write = .ok b) :
    effect (.mov dst src) s = .ok (writeLoc s b (readLoc s a)) := by
  simp only [effect, effectMov, ha, hb]; rfl

theorem effect_mov_src_error (ha : locate s src .read = .error k) : effect (.mov dst src) s = .error k := by
  simp only [effect, effectMov, ha]; rfl

theorem effect_mov_dst_error (ha : locate s src .read = .ok a) (hb : locate s dst .write = .error k) :
    effect (.mov dst src) s = .error k := by
  simp only [effect, effectMov, ha, hb]; rfl

theorem effect_jmp_of_located (ha : locate s dst .read = .ok a) :
    effect (.jmp dst) s = .ok (s.writeReg .ip (readLoc s a)) := by
  simp only [effect, effectJmp, ha]; rfl

theorem effect_jmp_error (ha : locate s dst .read = .error k) : effect (.jmp dst) s = .error k := by
  simp only [effect, effectJmp, ha]; rfl

theorem modifyLoc_of_located (f : Word → Word) (hb : locate s dst .write = .ok b) :
    modifyLoc f dst s = .ok (writeLoc s b (f (readLoc s b))) := by
  simp only [modifyLoc, hb]; rfl

theorem modifyLoc_error (f : Word → Word) (hb : locate s dst .write = .error k) :
    modifyLoc f dst s = .error k := by
  simp only [modifyLoc, hb]; rfl

theorem effect_push_of_located (ha : locate s src .read = .ok a) (hr : InRange s s.sp 8) :
    effect (.push src) s = .ok (pushWord s (readLoc s a)) := by
  simp only [effect, effectPush, ha, checkPushSlot_eq_ok.mpr hr]; rfl

theorem effect_push_src_error (ha : locate s src .read = .error k) : effect (.push src) s = .error k := by
  simp only [effect, effectPush, ha]; rfl

theorem effect_push_slot_error (ha : locate s src .read = .ok a) (hr : ¬ InRange s s.sp 8) :
    effect (.push src) s = .error .memoryAccessOutOfRange := by
  simp only [effect, effectPush, ha, checkPushSlot_eq_error.mpr ⟨hr, rfl⟩]; rfl

theorem effect_pop_of_located (hr : InRange s (s.sp - 8) 8) (hb : locate s dst .write = .ok b) :
    effect (.pop dst) s = .ok (writeLoc (s.writeReg .sp (s.sp - 8)) b (readMem s (s.sp - 8) .w8)) := by
  simp only [effect, effectPop, checkPopSlot_eq_ok.mpr ⟨hr, rfl⟩, hb]; rfl

theorem effect_pop_slot_error (hr : ¬ InRange s (s.sp - 8) 8) :
    effect (.pop dst) s = .error .memoryAccessOutOfRange := by
  simp only [effect, effectPop, checkPopSlot_eq_error.mpr ⟨hr, rfl⟩]; rfl

theorem effect_pop_dst_error (hr : InRange s (s.sp - 8) 8) (hb : locate s dst .write = .error k) :
    effect (.pop dst) s = .error k := by
  simp only [effect, effectPop, checkPopSlot_eq_ok.mpr ⟨hr, rfl⟩, hb]; rfl

theorem effect_call_of_located (hr : InRange s s.sp 8) (ha : locate s dst .read = .ok a) :
    effect (.call dst) s = .ok ((pushWord s s.ip).writeReg .ip (readLoc (pushWord s s.ip) a)) := by
  simp only [effect, effectCall, checkPushSlot_eq_ok.mpr hr, ha]; rfl

theorem effect_call_slot_error (hr : ¬ InRange s s.sp 8) :
    effect (.call dst) s = .error .memoryAccessOutOfRange := by
  simp only [effect, effectCall, checkPushSlot_eq_error.mpr ⟨hr, rfl⟩]; rfl

theorem effect_call_dst_error (hr : InRange s s.sp 8) (ha : locate s dst .read = .error k) :
    effect (.call dst) s = .error k := by
  simp only [effect, effectCall, checkPushSlot_eq_ok.mpr hr, ha]; rfl

theorem effect_ret_of_inRange (hr : InRange s (s.sp - 8) 8) :
    effect .ret s = .ok ((s.writeReg .sp (s.sp - 8)).writeReg .ip (readMem s (s.sp - 8) .w8)) := by
  simp only [effect, effectRet, checkPopSlot_eq_ok.mpr ⟨hr, rfl⟩]; rfl

theorem effect_ret_slot_error (hr : ¬ InRange s (s.sp - 8) 8) :
    effect .ret s = .error .memoryAccessOutOfRange := by
  simp only [effect, effectRet, checkPopSlot_eq_error.mpr ⟨hr, rfl⟩]; rfl

end Effects

/-- A location resolved for write is no constant, so it reads as what was written to it (R77). -/
theorem readLoc_writeLoc_of_locate {s : State} {o : Operand} {l : Location} (v : Word)
    (h : locate s o .write = .ok l) : readLoc (writeLoc s l v) l = v := by
  refine readLoc_writeLoc_same s v fun c hc => ?_
  rcases locate_write_cases h with ⟨i, hi⟩ | ⟨a, ha, _⟩
  · exact absurd (hc.symm.trans hi) (by simp)
  · exact absurd (hc.symm.trans ha) (by simp)

/-- The word just pushed stands in its slot. -/
theorem readMem_pushWord (s : State) (v : Word) : readMem (pushWord s v) s.sp .w8 = v := readMem_writeMem_same s s.sp v

end Sys2Proof.Machine
end

section
/-! Proofs of the statements about an instruction that completes, and about the order of its checks (41_basic.md to
45_call_return.md, 60_exceptions.md section 3). -/

namespace Sys2Proof.Machine

open Sys2Proof

/-- Settles O17. Both operands are located, so the effect is one write, which reads back (R101). -/
theorem movCopiesSourceToDestination : Obligations.MovCopiesSourceToDestination := by
  intro s dst src a b ha hb
  exact ⟨exec_of_effect_ok (effect_mov_of_located ha hb), readLoc_writeLoc_of_locate _ hb⟩

/-- Settles O19. The effect is the write of `ip` (R110). -/
theorem jmpSetsInstructionPointer : Obligations.JmpSetsInstructionPointer := by
  intro s dst a ha
  exact exec_of_effect_ok (effect_jmp_of_located ha)

/-- Settles O20. The written location reads back as the old value plus 1 of the word type, which wraps at `2 ^ 64`
(R115). -/
theorem incAddsOneModulo : Obligations.IncAddsOneModulo := by
  intro s dst b hb
  have hread := readLoc_writeLoc_of_locate (readLoc s b + 1) hb
  refine ⟨_, exec_of_effect_ok (modifyLoc_of_located (· + 1) hb), ?_, ?_⟩
  · rw [hread]
  · rw [hread, BitVec.toNat_add]
    rfl

/-- Settles O21. The written location reads back as the old value minus 1 of the word type, which wraps at 0 (R116). -/
theorem decSubtractsOneModulo : Obligations.DecSubtractsOneModulo := by
  intro s dst b hb
  have hread := readLoc_writeLoc_of_locate (readLoc s b - 1) hb
  refine ⟨_, exec_of_effect_ok (modifyLoc_of_located (· - 1) hb), ?_, ?_⟩
  · rw [hread]
  · rw [hread, BitVec.toNat_sub, Nat.add_comm]
    rfl

/-- Settles O22. The slot is in range, so `sp + 8` does not wrap, and the slot reads back as the pushed value (R125). -/
theorem pushStoresAndMovesUp : Obligations.PushStoresAndMovesUp := by
  intro s src a ha hr
  have hbound : s.sp.toNat + 8 ≤ s.cfg.memSize.toNat := hr
  have hcapacity := s.cfg.memSize.isLt
  refine ⟨_, exec_of_effect_ok (effect_push_of_located ha hr), rfl, ?_, ?_⟩
  · exact memRead_eq_ok.mpr ⟨hr, (readMem_pushWord s _).symm⟩
  · rw [pushWord_sp, BitVec.toNat_add]
    exact Nat.mod_eq_of_lt (by simp; omega)

/-- Settles O23. The bounds on `sp` are those of the slot below it (R126). -/
theorem popLoadsAndMovesDown : Obligations.PopLoadsAndMovesDown := by
  intro s dst b hlow hhigh hb
  have hr := (popSlot_inRange_iff s).mpr ⟨hlow, hhigh⟩
  exact ⟨_, memRead_eq_ok.mpr ⟨hr, rfl⟩, exec_of_effect_ok (effect_pop_of_located hr hb)⟩

/-- Settles O24. The push is the checked write at `sp`, and the target is read in the state after it (R135, D24). -/
theorem callPushesThenJumps : Obligations.CallPushesThenJumps := by
  intro s dst a hr ha
  exact ⟨_, memWrite_eq_ok.mpr ⟨hr, rfl⟩, exec_of_effect_ok (effect_call_of_located hr ha)⟩

/-- Settles O25. The bounds on `sp` are those of the slot below it (R136). -/
theorem retPopsInstructionPointer : Obligations.RetPopsInstructionPointer := by
  intro s hlow hhigh
  have hr := (popSlot_inRange_iff s).mpr ⟨hlow, hhigh⟩
  exact ⟨_, memRead_eq_ok.mpr ⟨hr, rfl⟩, exec_of_effect_ok (effect_ret_of_inRange hr)⟩

/-- Outside `8 <= sp <= MEM_SIZE` the slot below `sp` is out of range (R126). -/
theorem not_inRange_popSlot {s : State} (h : s.sp.toNat < 8 ∨ s.cfg.memSize.toNat < s.sp.toNat) :
    ¬ InRange s (s.sp - 8) 8 := by
  rw [popSlot_inRange_iff]
  omega

/-- Settles O26. Each clause is the answer of the effect at its first failing check (R163). -/
theorem instructionChecksInOrder : Obligations.InstructionChecksInOrder := by
  intro s dst src k
  refine ⟨fun hsrc => ?_, fun a ha hdst => ?_, fun hdst => ?_, fun hdst => ⟨?_, ?_⟩, fun hsrc => ?_, fun a ha hr => ?_,
    fun hsp => ⟨?_, ?_⟩, fun hlow hhigh hdst => ?_, fun hr => ?_, fun hr hdst => ?_⟩
  · exact exec_of_effect_error (effect_mov_src_error hsrc)
  · exact exec_of_effect_error (effect_mov_dst_error ha hdst)
  · exact exec_of_effect_error (effect_jmp_error hdst)
  · exact exec_of_effect_error (i := .inc dst) (modifyLoc_error (· + 1) hdst)
  · exact exec_of_effect_error (i := .dec dst) (modifyLoc_error (· - 1) hdst)
  · exact exec_of_effect_error (effect_push_src_error hsrc)
  · exact exec_of_effect_error (effect_push_slot_error ha hr)
  · exact exec_of_effect_error (effect_pop_slot_error (not_inRange_popSlot hsp))
  · exact exec_of_effect_error (effect_ret_slot_error (not_inRange_popSlot hsp))
  · exact exec_of_effect_error (effect_pop_dst_error ((popSlot_inRange_iff s).mpr ⟨hlow, hhigh⟩) hdst)
  · exact exec_of_effect_error (effect_call_slot_error hr)
  · exact exec_of_effect_error (effect_call_dst_error hr hdst)

end Sys2Proof.Machine
end

section
/-! What a step that fetches does, by what its fetch and its decoder answer (30_encoding.md R80, R81). -/

namespace Sys2Proof.Machine

open Sys2Proof

section Fetching

variable {s : State} (hs : Fetches s)
include hs

theorem step_of_not_inRange (hr : ¬ InRange s s.ip 19) :
    step s = .next (raiseFault .memoryAccessOutOfRange (beginStep s)) := by
  rw [step_of_fetches hs, fetchDecode_outOfRange hr]

theorem step_of_decode_ok {i : Instr} {rest : List Byte} (hr : InRange s s.ip 19)
    (hd : decode (Memory.load s.mem s.ip.toNat 19) = .ok (i, rest)) : step s = exec i (handlerState s) := by
  rw [step_of_fetches hs, fetchDecode_inRange hr, hd]

theorem step_of_decode_error {e : DecodeError} (hr : InRange s s.ip 19)
    (hd : decode (Memory.load s.mem s.ip.toNat 19) = .error e) :
    step s = .next (raiseFault (decodeFault e) (handlerState s)) := by
  rw [step_of_fetches hs, fetchDecode_inRange hr, hd]

/-- A step whose record lies in memory does what the decoder says of a record with the opcode and the flags found at
`ip` and after it. -/
theorem step_of_inRange (hr : InRange s s.ip 19) :
    ∃ r : Record, r.opcode = opcodeByte s ∧ r.reservedFlags = (flagsByte s).extractLsb' 6 2 ∧
      (∀ i, decodeRecord r = .ok i → step s = exec i (handlerState s)) ∧
      (∀ e, decodeRecord r = .error e → step s = .next (raiseFault (decodeFault e) (handlerState s))) := by
  obtain ⟨r, hload, hop, hfl⟩ := ofBytes_load s.mem s.ip.toNat
  have hdecode := decode_of_ofBytes_some hload
  refine ⟨r, hop, by rw [Record.reservedFlags, hfl, flagsByte], fun i hi => ?_, fun e he => ?_⟩
  · rw [hi] at hdecode
    exact step_of_decode_ok hs hr hdecode
  · rw [he] at hdecode
    exact step_of_decode_error hs hr hdecode

end Fetching

section Running

variable {s : State}

/-- The host's STEP from a state that fetches either completes an instruction, or raises a fault in the state that
differs by the count, the host phase and, unless the fetch failed, the advance of `ip`. -/
theorem stepAction_cases (hs : Fetches s) :
    (∃ i t, effect i (handlerState s) = .ok t ∧ stepAction s = (.executed, t) ∧ step s = .next t) ∨
    ∃ k u, u = { s with cycles := s.cycles + 1
                        phase := .started
                        ip := if InRange s s.ip 19 then s.ip + 19 else s.ip } ∧
      stepAction s = raiseOutcome k u ∧ step s = .next (raiseFault k u) := by
  rw [step_of_fetches hs, stepAction_of_fetches hs]
  by_cases hr : InRange s s.ip 19
  · rw [fetchDecode_inRange hr]
    cases decode (Memory.load s.mem s.ip.toNat 19) with
    | error e => exact Or.inr ⟨decodeFault e, handlerState s, by rw [if_pos hr]; rfl, rfl, rfl⟩
    | ok p =>
      obtain ⟨i, rest⟩ := p
      cases he : effect i (handlerState s) with
      | error k => exact Or.inr ⟨k, handlerState s, by rw [if_pos hr]; rfl, by simp [he], exec_of_effect_error he⟩
      | ok t => exact Or.inl ⟨i, t, he, by simp [he], exec_of_effect_ok he⟩
  · rw [fetchDecode_outOfRange hr]
    exact Or.inr ⟨.memoryAccessOutOfRange, beginStep s, by rw [if_neg hr]; rfl, rfl, rfl⟩

/-- A step in the halted state does nothing (R81). -/
theorem step_of_halted (hrun : s.runState = .running) (hhalt : s.halted = true) :
    step s = .next s ∧ stepAction s = (.halted, s) := by
  have hne : s.runState ≠ .faulted := by rw [hrun]; decide
  exact ⟨(if_neg hne).trans (if_pos hhalt), (if_neg hne).trans (if_pos hhalt)⟩

/-- A step in the faulted state reports the recorded fault and does nothing (R81, R158). -/
theorem step_of_faulted (hrun : s.runState = .faulted) :
    step s = .fault (.terminal s.faultRecord.kind s.faultRecord.faultIp s.faultRecord.faultSp) ∧
    stepAction s = (.faulted s.faultRecord.kind s.faultRecord.faultIp s.faultRecord.faultSp, s) :=
  ⟨if_pos hrun, if_pos hrun⟩

/-- A running state is halted or fetches. -/
theorem halted_or_fetches (hrun : s.runState = .running) : s.halted = true ∨ Fetches s := by
  cases hh : s.halted with
  | true => exact Or.inl rfl
  | false => exact Or.inr ⟨hrun, hh⟩

/-- From a running state `step` answers the state of the host's STEP. -/
theorem step_eq_stepAction (hrun : s.runState = .running) : step s = .next (stepAction s).2 := by
  rcases halted_or_fetches hrun with hhalt | hs
  · obtain ⟨hstep, haction⟩ := step_of_halted hrun hhalt
    rw [hstep, haction]
  · rcases stepAction_cases hs with ⟨i, t, _, haction, hstep⟩ | ⟨k, u, _, haction, hstep⟩
    · rw [hstep, haction]
    · rw [hstep, haction]
      rfl

end Running

end Sys2Proof.Machine
end

section
/-! Proofs of the statements about one step and the faults of its front (30_encoding.md section 4, 60_exceptions.md
sections 2 and 3). -/

namespace Sys2Proof.Machine

open Sys2Proof

/-- Settles O16. The record at `ip` decodes to `nop`, whose effect is the state it is given (R100). -/
theorem nopStepOnlyAdvances : Obligations.NopStepOnlyAdvances := by
  refine ⟨fun s => rfl, fun s hs hr hop hres => ?_⟩
  obtain ⟨r, hrop, hrres, hrun, _⟩ := step_of_inRange hs hr
  have hinstr : r.instr? = some .nop := by simp [Record.instr?, hrop, hop]
  exact hrun .nop (decodeRecord_of_instr hinstr (hrres.trans hres))

/-- Settles O18. The record at `ip` decodes to `hlt`, whose effect sets bit 0 of `flags` alone (R102). -/
theorem hltStepSetsHaltBit : Obligations.HltStepSetsHaltBit := by
  refine ⟨fun s => rfl, fun s hs hr hop hres => ?_⟩
  obtain ⟨r, hrop, hrres, hrun, _⟩ := step_of_inRange hs hr
  have hinstr : r.instr? = some .hlt := by simp [Record.instr?, hrop, hop]
  exact ⟨(handlerState s).setHalt, hrun .hlt (decodeRecord_of_instr hinstr (hrres.trans hres)), rfl,
    setHalt_halted _⟩

/-- Settles O32. The fetch is the first check and precedes the advance (R44, R80). -/
theorem fetchFaultLeavesInstructionPointer : Obligations.FetchFaultLeavesInstructionPointer :=
  fun _ hs hr => step_of_not_inRange hs hr

/-- Settles O33. A record with such an opcode is rejected whatever its flags are, after the advance (R68). -/
theorem illegalOpcodeFaultsAfterAdvance : Obligations.IllegalOpcodeFaultsAfterAdvance := by
  intro s hs hr hop
  obtain ⟨r, hrop, _, _, hfault⟩ := step_of_inRange hs hr
  exact hfault _ (decodeRecord_of_instr_none (instr_of_illegal_opcode (hrop ▸ hop)))

/-- Settles O34. A defined opcode passes the opcode check, and the reserved bits are the next one (R64). -/
theorem reservedFlagBitsFaultAfterAdvance : Obligations.ReservedFlagBitsFaultAfterAdvance := by
  intro s hs hr hop hres
  obtain ⟨r, hrop, hrres, _, hfault⟩ := step_of_inRange hs hr
  obtain ⟨i, hi, _⟩ := instr_of_defined_opcode (r := r) (hrop ▸ hop)
  exact hfault _ (decodeRecord_of_reserved hi (hrres ▸ hres))

/-- Settles O35. A step that does not complete an instruction ends in a raise, made in the state that differs by the
count, the host phase and the advance (R160, R161). -/
theorem faultingStepIsPrecise : Obligations.FaultingStepIsPrecise := by
  intro s t o hs hstep hexecuted
  rcases stepAction_cases hs with ⟨i, u, _, haction, _⟩ | ⟨k, u, hu, haction, _⟩
  · rw [hstep] at haction
    cases haction
    exact absurd rfl hexecuted
  · rw [hstep] at haction
    subst hu
    cases haction
    exact ⟨k, _, rfl, rfl, by rw [raiseFault, hs.1]⟩

/-- Settles O39. The decoder's answer is taken once, and its instruction runs in the advanced state (R81, R83). -/
theorem stepRunsDecodedInstruction : Obligations.StepRunsDecodedInstruction :=
  fun _ _ _ hs hr hd => step_of_decode_ok hs hr hd

/-- Settles O40. The two checks that precede the fetch (R81). -/
theorem haltedAndFaultedStepsDoNothing : Obligations.HaltedAndFaultedStepsDoNothing :=
  fun _ => ⟨step_of_halted, step_of_faulted⟩

/-- Settles O41. A running state answers the state of the host's STEP, and a faulted one a fault, so none refuses. -/
theorem stepAnswersNextUnlessFaulted : Obligations.StepAnswersNextUnlessFaulted := by
  intro s
  refine ⟨fun hrun => ⟨_, step_eq_stepAction hrun⟩, fun r hrefused => ?_⟩
  cases hrun : s.runState with
  | running => rw [step_eq_stepAction hrun] at hrefused; cases hrefused
  | faulted => rw [(step_of_faulted hrun).1] at hrefused; cases hrefused

/-- Settles O42, by `run_state` (R184). -/
theorem stepActionAgreesWithStep : Obligations.StepActionAgreesWithStep := by
  intro s
  refine ⟨step_eq_stepAction, fun hrun => ?_⟩
  obtain ⟨hstep, haction⟩ := step_of_faulted hrun
  exact ⟨by rw [haction], _, _, _, by rw [haction], hstep⟩

/-- Settles O57. Loading the 19 bytes just stored gives the canonical record, which decodes to its instruction (R53,
R85). -/
theorem storedRecordIsExecuted : Obligations.StoredRecordIsExecuted := by
  intro s i hs hr
  have hload : Memory.load (Memory.store s.mem s.ip.toNat (encode i)) s.ip.toNat 19 = encode i := by
    have h := load_store_same s.mem s.ip.toNat (encode i)
    rwa [length_encode] at h
  have hdecode := decode_encode_append i []
  rw [List.append_nil, ← hload] at hdecode
  exact step_of_decode_ok (s := { s with mem := Memory.store s.mem s.ip.toNat (encode i) }) hs hr hdecode

/-- Settles O58. The record has been decoded before its store is made, and the 8 bytes at `ip` are in range because the
19 of the record are (R83). -/
theorem selfOverwritingMovRunsAsDecoded : Obligations.SelfOverwritingMovRunsAsDecoded := by
  intro s v rest hs hr hd
  have hword : InRange (handlerState s) s.ip 8 := by
    show s.ip.toNat + 8 ≤ s.cfg.memSize.toNat
    omega
  have hsrc : locate (handlerState s) (.const v) .read = .ok (.imm v) := rfl
  have hdst : locate (handlerState s) (.memAbs s.ip) .write = .ok (.mem s.ip) := locateMem_of_inRange hword
  have hstep := (step_of_decode_ok hs hr hd).trans (exec_of_effect_ok (effect_mov_of_located hsrc hdst))
  exact ⟨_, hstep, memRead_eq_ok.mpr ⟨hword, (readMem_writeMem_same (handlerState s) s.ip v).symm⟩, rfl,
    fun b hb => byte_writeMem_outside (handlerState s) s.ip .w8 v hb⟩

end Sys2Proof.Machine
end

section
/-! Frames: what an instruction that answers next leaves unchanged (10_state.md R39). -/

namespace Sys2Proof.Machine

open Sys2Proof

/-- The registers and memory differ at the destination alone: no register but the one it names, and no byte outside the
8 it resolves to (R39). -/
structure DestinationFrame (s t : State) (dst : Operand) : Prop where
  otherRegs : ∀ j : Fin 8, (∀ w, dst = .reg w → w.toNat ≠ j.val) → t.regs[j] = s.regs[j]
  otherBytes : ∀ a, locate s dst .write = .ok (.mem a) →
    ∀ b, b < a.toNat ∨ a.toNat + 8 ≤ b → Memory.byte t.mem b = Memory.byte s.mem b
  noStore : (∀ a, locate s dst .write ≠ .ok (.mem a)) → t.mem = s.mem

theorem destinationFrame_of_eq {s t : State} (dst : Operand) (hregs : t.regs = s.regs) (hmem : t.mem = s.mem) :
    DestinationFrame s t dst :=
  ⟨fun _ _ => by rw [hregs], fun _ _ _ _ => by rw [hmem], fun _ => hmem⟩

/-- A write of the located destination, from a state with the same registers and memory, keeps to the destination. -/
theorem writeLoc_destinationFrame {s u : State} {dst : Operand} {l : Location} (v : Word)
    (hl : locate s dst .write = .ok l) (hregs : u.regs = s.regs) (hmem : u.mem = s.mem) :
    DestinationFrame s (writeLoc u l v) dst := by
  rcases locate_ok_cases hl with ⟨w, i, rfl, hw, rfl⟩ | ⟨a, rfl, hr, rfl⟩ | ⟨w, i, rfl, hw, hr, rfl⟩ | ⟨c, _, hk, _⟩
  · refine ⟨fun j hj => ?_, fun a ha => ?_, fun _ => hmem⟩
    · have hne : j ≠ i := fun e => hj w rfl (e ▸ hw)
      rw [writeLoc, writeGeneral_regs, hregs, regs_set_other _ _ hne]
    · rw [hl] at ha
      cases ha
  · refine ⟨fun j _ => by rw [← hregs]; rfl, fun a' ha b hb => ?_, fun hno => absurd hl (hno a)⟩
    rw [hl] at ha
    cases ha
    rw [writeLoc, byte_writeMem_outside _ _ _ _ hb, hmem]
  · refine ⟨fun j _ => by rw [← hregs]; rfl, fun a' ha b hb => ?_, fun hno => absurd hl (hno _)⟩
    rw [hl] at ha
    cases ha
    rw [writeLoc, byte_writeMem_outside _ _ _ _ hb, hmem]
  · cases hk

/-- The control state after an instruction that answers next: it is kept, but for the fault controller's part when a
fault was raised. -/
theorem exec_control {i : Instr} {s t : State} (h : exec i s = .next t) :
    t.ivec = s.ivec ∧ t.cycles = s.cycles ∧ t.phase = s.phase ∧ t.cfg = s.cfg ∧
    ((t.runState = s.runState ∧ t.faultRecord = s.faultRecord) ∨ ∃ k, t = raiseFault k s) := by
  rcases exec_next_cases h with he | ⟨k, _, rfl⟩
  · obtain ⟨hc, _, _⟩ := effect_ok_cases he
    exact ⟨hc.ivec, hc.cycles, hc.phase, hc.cfg, Or.inl ⟨hc.runState, hc.faultRecord⟩⟩
  · exact ⟨rfl, rfl, rfl, rfl, Or.inr ⟨k, rfl⟩⟩

/-- Only `hlt` writes `flags` (R25). -/
theorem exec_flags {i : Instr} {s t : State} (h : exec i s = .next t) (hi : i ≠ .hlt) : t.flags = s.flags := by
  rcases exec_next_cases h with he | ⟨k, _, rfl⟩
  · rcases effect_ok_cases he with ⟨_, _, hf | ⟨hhlt, _⟩⟩
    · exact hf
    · exact absurd hhlt hi
  · rfl

/-- `mov`, `inc` and `dec` complete with one write of their located destination. -/
theorem effect_ok_writes_destination {i : Instr} {s t : State} {dst src : Operand}
    (hi : i = .mov dst src ∨ i = .inc dst ∨ i = .dec dst) (h : effect i s = .ok t) :
    ∃ l v, locate s dst .write = .ok l ∧ t = writeLoc s l v := by
  rcases hi with rfl | rfl | rfl
  · obtain ⟨a, l, _, hl, ht⟩ := effectMov_ok h
    exact ⟨l, _, hl, ht⟩
  · obtain ⟨l, hl, ht⟩ := effectInc_ok h
    exact ⟨l, _, hl, ht⟩
  · obtain ⟨l, hl, ht⟩ := effectDec_ok h
    exact ⟨l, _, hl, ht⟩

/-- `push` and `call` complete with one push, after which `call` writes `ip`. -/
theorem effect_ok_pushes {i : Instr} {s t : State} {o : Operand} (hi : i = .push o ∨ i = .call o)
    (h : effect i s = .ok t) :
    ∃ v, t.regs = s.regs ∧ t.mem = (writeMem s s.sp .w8 v).mem ∧ t.sp = s.sp + 8 ∧ (i = .push o → t.ip = s.ip) := by
  rcases hi with rfl | rfl
  · obtain ⟨a, _, _, rfl⟩ := effectPush_ok h
    exact ⟨readLoc s a, rfl, rfl, rfl, fun _ => rfl⟩
  · obtain ⟨a, _, _, rfl⟩ := effectCall_ok h
    exact ⟨s.ip, rfl, rfl, rfl, nofun⟩

end Sys2Proof.Machine
end

section
/-! Proofs of the frame statements (10_state.md R39). -/

namespace Sys2Proof.Machine

open Sys2Proof

/-- Settles O27. A completed instruction has made one write of its destination; a raised fault has made none. -/
theorem movIncDecFrame : Obligations.MovIncDecFrame := by
  intro s t dst src i hi h
  obtain ⟨hivec, hcycles, hphase, hcfg, hcontrol⟩ := exec_control h
  have hflags : t.flags = s.flags := exec_flags h (by rcases hi with rfl | rfl | rfl <;> simp)
  have hframe : DestinationFrame s t dst ∧ t.ip = s.ip ∧ t.sp = s.sp := by
    rcases exec_next_cases h with he | ⟨k, _, rfl⟩
    · obtain ⟨l, v, hl, rfl⟩ := effect_ok_writes_destination hi he
      exact ⟨writeLoc_destinationFrame v hl rfl rfl, writeLoc_ip s l v, writeLoc_sp s l v⟩
    · exact ⟨destinationFrame_of_eq dst rfl rfl, rfl, rfl⟩
  obtain ⟨⟨hregs, hbytes, hmem⟩, hip, hsp⟩ := hframe
  exact ⟨hregs, hbytes, hmem, hip, hsp, hflags, hivec, hcycles, hphase, hcfg, hcontrol⟩

/-- Settles O28. A completed instruction has made one push; a raised fault has made none. -/
theorem pushCallFrame : Obligations.PushCallFrame := by
  intro s t o i hi h
  obtain ⟨hivec, hcycles, hphase, hcfg, hcontrol⟩ := exec_control h
  have hflags : t.flags = s.flags := exec_flags h (by rcases hi with rfl | rfl <;> simp)
  rcases exec_next_cases h with he | ⟨k, _, rfl⟩
  · obtain ⟨v, hregs, hmem, hsp, hip⟩ := effect_ok_pushes hi he
    refine ⟨hregs, fun b hb => ?_, Or.inr hsp, hip, hflags, hivec, hcycles, hphase, hcfg, hcontrol⟩
    rw [hmem, byte_writeMem_outside s s.sp .w8 v hb]
  · exact ⟨rfl, fun _ _ => rfl, Or.inl rfl, fun _ => rfl, hflags, hivec, hcycles, hphase, hcfg, hcontrol⟩

/-- Settles O29. A completed `pop` has moved `sp` and made one write of its destination; a raised fault has made
none. -/
theorem popFrame : Obligations.PopFrame := by
  intro s t dst h
  obtain ⟨hivec, hcycles, hphase, hcfg, hcontrol⟩ := exec_control h
  have hflags : t.flags = s.flags := exec_flags h (by simp)
  have hframe : DestinationFrame s t dst ∧ (t.sp = s.sp ∨ t.sp = s.sp - 8) ∧ t.ip = s.ip := by
    rcases exec_next_cases h with he | ⟨k, _, rfl⟩
    · obtain ⟨l, _, hl, rfl⟩ := effectPop_ok he
      exact ⟨writeLoc_destinationFrame _ hl rfl rfl, Or.inr (by rw [writeLoc_sp, writeSp_sp]),
        by rw [writeLoc_ip, writeSp_ip]⟩
    · exact ⟨destinationFrame_of_eq dst rfl rfl, Or.inl rfl, rfl⟩
  obtain ⟨⟨hregs, hbytes, hmem⟩, hsp, hip⟩ := hframe
  exact ⟨hregs, hbytes, hmem, hsp, hip, hflags, hivec, hcycles, hphase, hcfg, hcontrol⟩

/-- Settles O30. Each of the four completes with a write of `flags`, `ip` or `sp`; a raised fault writes none of
them. -/
theorem nopHltJmpRetFrame : Obligations.NopHltJmpRetFrame := by
  intro s t dst i hi h
  obtain ⟨hivec, hcycles, hphase, hcfg, hcontrol⟩ := exec_control h
  have hframe : t.regs = s.regs ∧ t.mem = s.mem ∧ (i = .hlt → t.flags = s.flags ||| 1) ∧
      (i = .nop ∨ i = .hlt → t.ip = s.ip) ∧ (i ≠ .ret → t.sp = s.sp) ∧ (t.sp = s.sp ∨ t.sp = s.sp - 8) := by
    rcases exec_next_cases h with he | ⟨k, he, rfl⟩
    · rcases hi with rfl | rfl | rfl | rfl
      · cases he
        simp
      · cases he
        simp [haltMask]
      · obtain ⟨a, _, rfl⟩ := effectJmp_ok he
        simp
      · obtain ⟨_, rfl⟩ := effectRet_ok he
        simp
    · have hne : i ≠ .hlt := by rintro rfl; cases he
      simp [hne]
  obtain ⟨hregs, hmem, hhlt, hip, hspOther, hsp⟩ := hframe
  exact ⟨hregs, hmem, hhlt, exec_flags h, hip, hspOther, hsp, hivec, hcycles, hphase, hcfg, hcontrol⟩

end Sys2Proof.Machine
end

section
/-! Which faults an instruction raises, and from what (60_exceptions.md R152 to R155; 30_encoding.md R71, R84). -/

namespace Sys2Proof.Machine

open Sys2Proof

/-- A located operand is well formed for its kind: the resolver makes the three checks of well-formedness. -/
theorem wellFormed_of_locate_ok {s : State} {o : Operand} {k : Access} {l : Location} (h : locate s o k = .ok l) :
    o.wellFormed k = true := by
  rcases locate_ok_cases h with ⟨w, i, rfl, hw, _⟩ | ⟨a, rfl, _, _⟩ | ⟨w, i, rfl, hw, _, _⟩ | ⟨v, rfl, rfl, _⟩
  · have := i.isLt
    simp [Operand.wellFormed, Operand.hasMode, Operand.indexInRange, Operand.notWrittenConst, hw]
  · rfl
  · have := i.isLt
    simp [Operand.wellFormed, Operand.hasMode, Operand.indexInRange, Operand.notWrittenConst, hw]
  · rfl

/-- Every operand a completed instruction uses has been located. -/
theorem uses_located_of_effect_ok {i : Instr} {s t : State} (h : effect i s = .ok t) :
    ∀ u ∈ i.uses, ∃ l, locate s u.1 u.2 = .ok l := by
  cases i with
  | nop => simp [Instr.uses]
  | hlt => simp [Instr.uses]
  | ret => simp [Instr.uses]
  | mov dst src =>
    obtain ⟨a, b, ha, hb, _⟩ := effectMov_ok h
    simp [Instr.uses, ha, hb]
  | jmp dst => obtain ⟨a, ha, _⟩ := effectJmp_ok h; simp [Instr.uses, ha]
  | inc dst => obtain ⟨b, hb, _⟩ := effectInc_ok h; simp [Instr.uses, hb]
  | dec dst => obtain ⟨b, hb, _⟩ := effectDec_ok h; simp [Instr.uses, hb]
  | push src => obtain ⟨a, ha, _⟩ := effectPush_ok h; simp [Instr.uses, ha]
  | pop dst => obtain ⟨b, _, hb, _⟩ := effectPop_ok h; simp [Instr.uses, hb]
  | call dst => obtain ⟨a, _, ha, _⟩ := effectCall_ok h; simp [Instr.uses, ha]

/-- An instruction that completes is well formed. -/
theorem wellFormed_of_effect_ok {i : Instr} {s t : State} (h : effect i s = .ok t) : i.wellFormed = true := by
  refine List.all_eq_true.mpr fun u hu => ?_
  obtain ⟨l, hl⟩ := uses_located_of_effect_ok h u hu
  exact wellFormed_of_locate_ok hl

/-- What a fault of the resolver says of the operand and the state, kind by kind (R71 to R76). -/
theorem cause_of_locate_error {s : State} {o : Operand} {a : Access} {k : FaultKind} (h : locate s o a = .error k) :
    k ≠ .invalidOpcode ∧
    (k = .badRegisterIndex → o.indexInRange = false) ∧
    (k = .badOperandFlagCombination → o.hasMode = false ∨ o.notWrittenConst a = false) ∧
    (k = .memoryAccessOutOfRange →
      (∃ w, o = .memAbs w ∧ ¬ InRange s w 8) ∨
        ∃ w, ∃ r : Fin 8, o = .memReg w ∧ w.toNat = r.val ∧ ¬ InRange s s.regs[r] 8) := by
  rcases locate_error_cases h with ⟨rfl, w, hw, hlarge⟩ | ⟨rfl, w, ho, hr⟩ | ⟨rfl, ho⟩
  · refine ⟨by simp, fun _ => ?_, nofun, nofun⟩
    rcases hw with rfl | rfl
    · simpa [Operand.indexInRange] using hlarge
    · simpa [Operand.indexInRange] using hlarge
  · refine ⟨by simp, nofun, nofun, fun _ => ?_⟩
    rcases ho with rfl | ⟨v, i, rfl, hv, rfl⟩
    · exact Or.inl ⟨w, rfl, hr⟩
    · exact Or.inr ⟨v, i, rfl, hv, hr⟩
  · refine ⟨by simp, nofun, fun _ => ?_, nofun⟩
    rcases ho with rfl | ⟨v, rfl, rfl⟩
    · exact Or.inl rfl
    · exact Or.inr rfl

/-- The resolver raises no fault but an address out of range on a well-formed operand. -/
theorem eq_memoryFault_of_locate_error {s : State} {o : Operand} {a : Access} {k : FaultKind}
    (h : locate s o a = .error k) (hwf : o.wellFormed a = true) : k = .memoryAccessOutOfRange := by
  obtain ⟨hop, hindex, hflags, _⟩ := cause_of_locate_error h
  simp only [Operand.wellFormed, Bool.and_eq_true] at hwf
  obtain ⟨⟨hmode, hin⟩, hconst⟩ := hwf
  cases k with
  | invalidOpcode => exact absurd rfl hop
  | badRegisterIndex => simp [hin] at hindex
  | memoryAccessOutOfRange => rfl
  | badOperandFlagCombination => simp [hmode, hconst] at hflags

/-- Settles O36, by where the fault came from: an operand the instruction uses, or its stack slot (R152 to R155). -/
theorem faultKindsByInstruction : Obligations.FaultKindsByInstruction := by
  intro i s k h
  have hnop : i ≠ .nop := by rintro rfl; cases h
  have hhlt : i ≠ .hlt := by rintro rfl; cases h
  rcases effect_error_cases h with ⟨o, a, hu, hl⟩ | ⟨rfl, hi, hr⟩ | ⟨rfl, hi, hr⟩
  · obtain ⟨hop, hindex, hflags, haddr⟩ := cause_of_locate_error hl
    refine ⟨hop, hnop, hhlt, ?_, fun hk => ⟨o, a, hu, hindex hk⟩, fun hk => ⟨o, a, hu, hflags hk⟩,
      fun hk => Or.inl ⟨o, a, hu, haddr hk⟩⟩
    rintro rfl
    simp [Instr.uses] at hu
  · exact ⟨by simp, hnop, hhlt, fun _ => rfl, nofun, nofun,
      fun _ => Or.inr (Or.inl ⟨hi, hr⟩)⟩
  · refine ⟨by simp, hnop, hhlt, fun _ => rfl, nofun, nofun,
      fun _ => Or.inr (Or.inr ⟨hi, ?_⟩)⟩
    rw [popSlot_inRange_iff] at hr
    omega

/-- Settles O37. A fault comes from a used operand, which is well formed, or from a stack slot; an instruction that
completes has had its operands located, so it is well formed. -/
theorem wellFormedRaisesOnlyMemoryFault : Obligations.WellFormedRaisesOnlyMemoryFault := by
  intro i s
  refine ⟨fun hwf k h => ?_, fun hill => ?_⟩
  · rcases effect_error_cases h with ⟨o, a, hu, hl⟩ | ⟨hk, _⟩ | ⟨hk, _⟩
    · exact eq_memoryFault_of_locate_error hl (List.all_eq_true.mp hwf _ hu)
    · exact hk
    · exact hk
  · cases he : effect i s with
    | error k => exact ⟨k, rfl⟩
    | ok t =>
      rw [wellFormed_of_effect_ok he] at hill
      cases hill

end Sys2Proof.Machine
end

section
/-! Proofs of the statements about all steps: what they count, which registers they move, what they keep hidden
(10_state.md). -/

namespace Sys2Proof.Machine

open Sys2Proof

/-- An instruction the front of a step answers has the opcode byte at `ip`, and its record lies in memory. -/
theorem opcode_of_fetchDecode {s t : State} {i : Instr} (h : fetchDecode (beginStep s) = .ok (i, t)) :
    InRange s s.ip 19 ∧ i.opcode = opcodeByte s := by
  by_cases hr : InRange s s.ip 19
  · rw [fetchDecode_inRange hr] at h
    cases hd : decode (Memory.load s.mem s.ip.toNat 19) with
    | error e => simp [hd] at h
    | ok p =>
      obtain ⟨j, rest⟩ := p
      simp only [hd, Except.ok.injEq, Prod.mk.injEq] at h
      exact ⟨hr, h.1 ▸ opcode_of_decode_load hd⟩
  · rw [fetchDecode_outOfRange hr] at h
    cases h

/-- A step that answers next was halted, raised a fault after its count, or completed the instruction of the opcode byte
at `ip`. -/
theorem step_next_summary {s t : State} (h : step s = .next t) :
    (s.halted = true ∧ t = s) ∨
    (Fetches s ∧
      ((∃ k u, (u = beginStep s ∨ u = handlerState s) ∧ t = raiseFault k u) ∨
       ∃ i, InRange s s.ip 19 ∧ i.opcode = opcodeByte s ∧ effect i (handlerState s) = .ok t)) := by
  obtain ⟨hrun, hhalt | ⟨hhalt, ⟨k, u, _, hu, ht⟩ | ⟨i, hf, he | ⟨k, _, ht⟩⟩⟩⟩ := step_next_cases h
  · exact Or.inl hhalt
  · exact Or.inr ⟨⟨hrun, hhalt⟩, Or.inl ⟨k, u, hu, ht⟩⟩
  · obtain ⟨hr, hop⟩ := opcode_of_fetchDecode hf
    exact Or.inr ⟨⟨hrun, hhalt⟩, Or.inr ⟨i, hr, hop, he⟩⟩
  · exact Or.inr ⟨⟨hrun, hhalt⟩, Or.inl ⟨k, _, Or.inr rfl, ht⟩⟩

/-- A step that fetches keeps `ivec` and the parameters, counts itself and closes LOAD. -/
theorem step_next_control {s t : State} (hs : Fetches s) (h : step s = .next t) :
    t.ivec = s.ivec ∧ t.cfg = s.cfg ∧ t.cycles = s.cycles + 1 ∧ t.phase = .started := by
  rcases step_next_summary h with ⟨hhalt, _⟩ | ⟨_, ⟨k, u, hu, rfl⟩ | ⟨i, _, _, he⟩⟩
  · exact absurd hhalt (by simp [hs.2])
  · rcases hu with rfl | rfl
    · exact ⟨rfl, rfl, rfl, rfl⟩
    · exact ⟨rfl, rfl, rfl, rfl⟩
  · obtain ⟨hc, _, _⟩ := effect_ok_cases he
    exact ⟨hc.ivec, hc.cfg, hc.cycles, hc.phase⟩

/-- Only `push` and `call` move `sp` up, and `pop` and `ret` down, by one slot (R24). -/
theorem effect_ok_sp {i : Instr} {s t : State} (h : effect i s = .ok t) :
    t.sp = s.sp ∨ (t.sp = s.sp + 8 ∧ (i.opcode = 0x06 ∨ i.opcode = 0x08)) ∨
    (t.sp = s.sp - 8 ∧ (i.opcode = 0x07 ∨ i.opcode = 0x09)) := by
  cases i with
  | nop => cases h; exact Or.inl rfl
  | hlt => cases h; exact Or.inl rfl
  | mov dst src => obtain ⟨a, b, _, _, rfl⟩ := effectMov_ok h; exact Or.inl (writeLoc_sp _ _ _)
  | jmp dst => obtain ⟨a, _, rfl⟩ := effectJmp_ok h; exact Or.inl rfl
  | inc dst => obtain ⟨b, _, rfl⟩ := effectInc_ok h; exact Or.inl (writeLoc_sp _ _ _)
  | dec dst => obtain ⟨b, _, rfl⟩ := effectDec_ok h; exact Or.inl (writeLoc_sp _ _ _)
  | push src => obtain ⟨a, _, _, rfl⟩ := effectPush_ok h; exact Or.inr (Or.inl ⟨rfl, Or.inl rfl⟩)
  | pop dst => obtain ⟨b, _, _, rfl⟩ := effectPop_ok h; exact Or.inr (Or.inr ⟨writeLoc_sp _ _ _, Or.inl rfl⟩)
  | call dst => obtain ⟨a, _, _, rfl⟩ := effectCall_ok h; exact Or.inr (Or.inl ⟨rfl, Or.inr rfl⟩)
  | ret => obtain ⟨_, rfl⟩ := effectRet_ok h; exact Or.inr (Or.inr ⟨rfl, Or.inr rfl⟩)

/-- Settles O43. A halted step changes nothing, and a fetching one counts itself once, completed or faulted (R29). -/
theorem stepCountsFetchesAndKeepsParameters : Obligations.StepCountsFetchesAndKeepsParameters := by
  intro s t h
  rcases step_next_summary h with ⟨hhalt, rfl⟩ | ⟨hs, _⟩
  · exact ⟨rfl, rfl, by rw [if_pos hhalt]⟩
  · obtain ⟨hivec, hcfg, hcycles, _⟩ := step_next_control hs h
    exact ⟨hivec, hcfg, by rw [hcycles, hs.2]; rfl⟩

/-- Settles O44. A raise keeps `flags`, and an effect that does not is `hlt`'s (R25). -/
theorem onlyHltWritesFlags : Obligations.OnlyHltWritesFlags := by
  intro s t h
  rcases step_next_summary h with ⟨_, rfl⟩ | ⟨hs, ⟨k, u, hu, rfl⟩ | ⟨i, hr, hop, he⟩⟩
  · exact Or.inl rfl
  · rcases hu with rfl | rfl
    · exact Or.inl rfl
    · exact Or.inl rfl
  · rcases effect_ok_cases he with ⟨_, _, hflags | ⟨rfl, hflags⟩⟩
    · exact Or.inl hflags
    · exact Or.inr ⟨hs, hr, hop.symm, hflags⟩

/-- Settles O45. A raise keeps `sp`, and an effect moves it by its opcode (R24). -/
theorem stackPointerMovesOneSlot : Obligations.StackPointerMovesOneSlot := by
  intro s t h
  rcases step_next_summary h with ⟨_, rfl⟩ | ⟨_, ⟨k, u, hu, rfl⟩ | ⟨i, _, hop, he⟩⟩
  · exact Or.inl rfl
  · rcases hu with rfl | rfl
    · exact Or.inl rfl
    · exact Or.inl rfl
  · have hsp := effect_ok_sp he
    rwa [hop] at hsp

/-! ### The hidden state -/

/-- The state with other hidden fields: `ivec`, `cycles`, `run_state`, `fault_record` and the host phase. -/
def withHidden (v c : Word) (r : RunState) (f : FaultRecord) (p : HostPhase) (s : State) : State :=
  { s with ivec := v, cycles := c, runState := r, faultRecord := f, phase := p }

section Hidden

variable (v c : Word) (r : RunState) (f : FaultRecord) (p : HostPhase) (s : State)

theorem locate_withHidden (o : Operand) (k : Access) : locate (withHidden v c r f p s) o k = locate s o k := by
  cases o <;> rfl

theorem readLoc_withHidden (l : Location) : readLoc (withHidden v c r f p s) l = readLoc s l := by
  cases l <;> rfl

theorem writeLoc_withHidden (l : Location) (w : Word) :
    writeLoc (withHidden v c r f p s) l w = withHidden v c r f p (writeLoc s l w) := by
  cases l <;> rfl

theorem modifyLoc_withHidden (g : Word → Word) (dst : Operand) :
    modifyLoc g dst (withHidden v c r f p s) = (modifyLoc g dst s).map (withHidden v c r f p) := by
  simp only [modifyLoc, locate_withHidden]
  cases locate s dst .write with
  | error k => rfl
  | ok b =>
    simp only [readLoc_withHidden, writeLoc_withHidden, bind, Except.bind, pure, Except.pure, Except.map]

theorem checkPushSlot_withHidden : checkPushSlot (withHidden v c r f p s) = checkPushSlot s := rfl

theorem checkPopSlot_withHidden : checkPopSlot (withHidden v c r f p s) = checkPopSlot s := rfl

theorem pushWord_withHidden (w : Word) :
    pushWord (withHidden v c r f p s) w = withHidden v c r f p (pushWord s w) := rfl

/-- No effect reads or writes the hidden state. -/
theorem effect_withHidden (i : Instr) :
    effect i (withHidden v c r f p s) = (effect i s).map (withHidden v c r f p) := by
  cases i with
  | nop => rfl
  | hlt => rfl
  | mov dst src =>
    simp only [effect, effectMov, locate_withHidden]
    cases locate s src .read with
    | error k => rfl
    | ok a =>
      cases locate s dst .write with
      | error k => rfl
      | ok b => exact congrArg Except.ok (by rw [readLoc_withHidden, writeLoc_withHidden])
  | jmp dst =>
    simp only [effect, effectJmp, locate_withHidden]
    cases locate s dst .read with
    | error k => rfl
    | ok a => exact congrArg Except.ok (by rw [readLoc_withHidden]; rfl)
  | inc dst => exact modifyLoc_withHidden v c r f p s (· + 1) dst
  | dec dst => exact modifyLoc_withHidden v c r f p s (· - 1) dst
  | push src =>
    simp only [effect, effectPush, locate_withHidden, checkPushSlot_withHidden]
    cases locate s src .read with
    | error k => rfl
    | ok a =>
      cases checkPushSlot s with
      | error k => rfl
      | ok _ => exact congrArg Except.ok (by rw [readLoc_withHidden, pushWord_withHidden])
  | pop dst =>
    simp only [effect, effectPop, locate_withHidden, checkPopSlot_withHidden]
    cases checkPopSlot s with
    | error k => rfl
    | ok a =>
      cases locate s dst .write with
      | error k => rfl
      | ok b => exact congrArg Except.ok (writeLoc_withHidden v c r f p (s.writeReg .sp a) b _)
  | call dst =>
    simp only [effect, effectCall, locate_withHidden, checkPushSlot_withHidden]
    cases checkPushSlot s with
    | error k => rfl
    | ok _ =>
      cases locate s dst .read with
      | error k => rfl
      | ok a => exact congrArg Except.ok (by rw [pushWord_withHidden, readLoc_withHidden]; rfl)
  | ret =>
    simp only [effect, effectRet, checkPopSlot_withHidden]
    cases checkPopSlot s with
    | error k => rfl
    | ok a => rfl

end Hidden

/-- Settles O47. Every operation of an effect commutes with a change of the hidden state (R26 to R29). -/
theorem hiddenStateIsUnobservable : Obligations.HiddenStateIsUnobservable :=
  fun i s v c r f p => effect_withHidden v c r f p s i

end Sys2Proof.Machine
end

section
/-! The invariant of a run (Safety.lean): RESET establishes it, LOAD and every step keep it. -/

namespace Sys2Proof.Machine

open Sys2Proof

/-- What the invariant says of a state inside a step that fetches, after its count: it is running, not halted, and the
host phase is started. -/
structure MidStep (s : State) : Prop where
  memoryCanonical : s.mem.wf = true
  memoryInside : MemoryInside s
  reservedFlags : reservedFlagsZero s.flags = true
  vectorFixed : s.ivec = s.cfg.ivecReset
  recordConsistent : FaultRecordConsistent s.faultRecord
  running : s.runState = .running
  notHalted : s.halted = false
  started : s.phase = .started

theorem midStep_beginStep {s : State} (hi : Inv s) (hs : Fetches s) : MidStep (beginStep s) :=
  ⟨hi.memoryCanonical, hi.memoryInside, hi.reservedFlags, hi.vectorFixed, hi.recordConsistent, hs.1, hs.2, rfl⟩

theorem midStep_handlerState {s : State} (hi : Inv s) (hs : Fetches s) : MidStep (handlerState s) :=
  ⟨hi.memoryCanonical, hi.memoryInside, hi.reservedFlags, hi.vectorFixed, hi.recordConsistent, hs.1, hs.2, rfl⟩

/-- A raise inside a step ends in the invariant: with no vector the core is Faulted, with the snapshot just taken. -/
theorem inv_raiseFault {s : State} (k : FaultKind) (hm : MidStep s) : Inv (raiseFault k s) where
  memoryCanonical := hm.memoryCanonical
  memoryInside := hm.memoryInside
  reservedFlags := hm.reservedFlags
  vectorFixed := hm.vectorFixed
  recordConsistent := by simp [FaultRecordConsistent]
  faultedTerminal := by
    intro hfaulted
    have hvec : s.ivec = 0 := by
      by_contra hne
      rw [raiseFault_runState, if_neg hne, hm.running] at hfaulted
      cases hfaulted
    exact ⟨hvec, rfl, rfl, rfl, hm.notHalted⟩
  notStarted := fun hphase => absurd hm.started hphase

/-- A store below the capacity lists no byte outside it. -/
theorem store_below {m : Memory} {a size : Nat} {bs : List Byte} (hm : ∀ c ∈ m, c.1 < size)
    (hb : a + bs.length ≤ size) : ∀ c ∈ Memory.store m a bs, c.1 < size := by
  intro c hc
  rcases mem_store hc with hold | ⟨_, hnew⟩
  · exact hm c hold
  · omega

/-- One store in range keeps memory canonical and inside the capacity. -/
theorem memory_of_oneStore {s t : State} (h : OneStore s t) (hcfg : t.cfg = s.cfg) (hwf : s.mem.wf = true)
    (hin : MemoryInside s) : t.mem.wf = true ∧ MemoryInside t := by
  rw [MemoryInside, hcfg]
  rcases h with hmem | ⟨a, v, hr, hmem⟩
  · rw [hmem]
    exact ⟨hwf, hin⟩
  · rw [hmem]
    exact ⟨store_wf _ _ hwf, store_below hin (by rw [length_leBytes]; exact hr)⟩

/-- An instruction that completes inside a step ends in the invariant. -/
theorem inv_of_effect_ok {i : Instr} {s t : State} (hm : MidStep s) (h : effect i s = .ok t) : Inv t := by
  obtain ⟨hc, hstore, hflags⟩ := effect_ok_cases h
  obtain ⟨hwf, hin⟩ := memory_of_oneStore hstore hc.cfg hm.memoryCanonical hm.memoryInside
  refine ⟨hwf, hin, ?_, ?_, ?_, ?_, ?_⟩
  · rcases hflags with hsame | ⟨_, hhalt⟩
    · rw [hsame]
      exact hm.reservedFlags
    · rw [hhalt]
      exact setHalt_reservedFlags hm.reservedFlags
  · rw [hc.ivec, hc.cfg]
    exact hm.vectorFixed
  · rw [hc.faultRecord]
    exact hm.recordConsistent
  · intro hfaulted
    rw [hc.runState, hm.running] at hfaulted
    cases hfaulted
  · intro hphase
    exact absurd (hc.phase.trans hm.started) hphase

/-- Settles O49. A halted step keeps the state; a fetching one passes through states of which `MidStep` holds, and ends
in a raise or in the result of an effect, both of which give the invariant. -/
theorem stepKeepsInvariant : Obligations.StepKeepsInvariant := by
  intro s t hi h
  rcases step_next_summary h with ⟨_, rfl⟩ | ⟨hs, ⟨k, u, hu, rfl⟩ | ⟨i, _, _, he⟩⟩
  · exact hi
  · rcases hu with rfl | rfl
    · exact inv_raiseFault k (midStep_beginStep hi hs)
    · exact inv_raiseFault k (midStep_handlerState hi hs)
  · exact inv_of_effect_ok (midStep_handlerState hi hs) he

/-- Settles O48, part by part of the invariant: memory is empty, `flags` is 0, the record is the empty one, the core is
running. -/
theorem resetMeetsInvariant : Obligations.ResetMeetsInvariant := fun c =>
  { memoryCanonical := rfl
    memoryInside := fun _ hc => absurd hc (List.not_mem_nil)
    reservedFlags := (by decide : reservedFlagsZero 0 = true)
    vectorFixed := rfl
    recordConsistent := rfl
    faultedTerminal := nofun
    notStarted := fun _ => rfl }

/-! ### LOAD -/

theorem loadAction_of_accepted {image : List Byte} {s : State}
    (h : s.phase = .afterReset ∧ 1 ≤ image.length ∧ image.length ≤ s.cfg.memSize.toNat) :
    loadAction image s = .ok { s with mem := Memory.store s.mem 0 image, phase := .loaded } := if_pos h

theorem loadAction_of_refused {image : List Byte} {s : State}
    (h : ¬ (s.phase = .afterReset ∧ 1 ≤ image.length ∧ image.length ≤ s.cfg.memSize.toNat)) :
    loadAction image s = .error .loadError := if_neg h

/-- Once the host phase has left its reset value every LOAD is refused. -/
theorem loadAction_of_phase {image : List Byte} {s : State} (h : s.phase ≠ .afterReset) :
    loadAction image s = .error .loadError := loadAction_of_refused fun hacc => h hacc.1

theorem loadAction_eq_ok {image : List Byte} {s t : State} (h : loadAction image s = .ok t) :
    (s.phase = .afterReset ∧ 1 ≤ image.length ∧ image.length ≤ s.cfg.memSize.toNat) ∧
    t = { s with mem := Memory.store s.mem 0 image, phase := .loaded } := by
  by_cases hacc : s.phase = .afterReset ∧ 1 ≤ image.length ∧ image.length ≤ s.cfg.memSize.toNat
  · rw [loadAction_of_accepted hacc] at h
    cases h
    exact ⟨hacc, rfl⟩
  · rw [loadAction_of_refused hacc] at h
    cases h

/-- Settles O50. An accepted LOAD stores inside the capacity and writes no register, so the state is as reset but for
memory and the host phase. -/
theorem hostActionsKeepInvariant : Obligations.HostActionsKeepInvariant := by
  refine ⟨fun s t image hi h => ?_, fun s => resetMeetsInvariant s.cfg⟩
  obtain ⟨⟨hphase, _, hlen⟩, rfl⟩ := loadAction_eq_ok h
  have hreset := hi.notStarted (by rw [hphase]; simp)
  exact
    { memoryCanonical := store_wf 0 image hi.memoryCanonical
      memoryInside := store_below hi.memoryInside (by rw [Nat.zero_add]; exact hlen)
      reservedFlags := hi.reservedFlags
      vectorFixed := hi.vectorFixed
      recordConsistent := hi.recordConsistent
      faultedTerminal := hi.faultedTerminal
      notStarted := fun _ =>
        congrArg (fun u : State => { u with mem := Memory.store s.mem 0 image, phase := .loaded }) hreset }

end Sys2Proof.Machine
end

section
/-! Proofs of the statements about the host's actions (70_reset_and_hazards.md sections 1 to 3). -/

namespace Sys2Proof.Machine

open Sys2Proof

/-- Settles O51. `resetWith` of the state's own parameters, field by field (R180). -/
theorem resetSetsEveryValue : Obligations.ResetSetsEveryValue := by
  intro s
  refine ⟨fun i => ?_, rfl, rfl, rfl, rfl, rfl, rfl, rfl, fun a => rfl, rfl, rfl⟩
  simp [resetAction, State.resetWith]

/-- Settles O52. The image is stored from address 0; the accepted load and a fetching step both leave a host phase that
refuses the next LOAD (R182, R183). -/
theorem loadCopiesImageOnce : Obligations.LoadCopiesImageOnce := by
  intro s image
  refine ⟨fun hacc => ?_, loadAction_of_refused, fun hs t h => ?_⟩
  · refine ⟨_, loadAction_of_accepted hacc, rfl, fun k hk => ?_, fun a ha => ?_, fun again => ?_⟩
    · have hbyte := byte_store_inside s.mem 0 image k hk
      rwa [Nat.zero_add] at hbyte
    · exact byte_store_outside s.mem 0 image a (Or.inr (by omega))
    · exact loadAction_of_phase (by simp)
  · obtain ⟨_, _, _, hphase⟩ := step_next_control hs h
    exact loadAction_of_phase (by rw [hphase]; simp)

/-- Settles O54. The bytes are one load over the whole capacity (R186). -/
theorem observeCopiesEveryPiece : Obligations.ObserveCopiesEveryPiece := by
  intro s
  refine ⟨rfl, rfl, rfl, rfl, rfl, rfl, rfl, rfl, length_load _ _ _, fun a ha => ?_⟩
  have hlen : a < (Memory.load s.mem 0 s.cfg.memSize.toNat).length := by rwa [length_load]
  show (Memory.load s.mem 0 s.cfg.memSize.toNat)[a]? = some (Memory.byte s.mem a)
  rw [List.getElem?_eq_getElem hlen, getElem_load, Nat.zero_add]

/-! ### RUN -/

section Run

variable {s t : State} {k : Option FaultKind} {ip sp : Word} (n : Nat)

theorem runAction_of_halted (h : stepAction s = (.halted, t)) : runAction (n + 1) s = (.halted, t) := by
  rw [runAction, h]

theorem runAction_of_faulted (h : stepAction s = (.faulted k ip sp, t)) :
    runAction (n + 1) s = (.faulted k ip sp, t) := by
  rw [runAction, h]

theorem runAction_of_executed (h : stepAction s = (.executed, t)) : runAction (n + 1) s = runAction n t := by
  rw [runAction, h]

theorem runAction_of_hooked (h : stepAction s = (.hooked k ip sp, t)) : runAction (n + 1) s = runAction n t := by
  rw [runAction, h]

/-- What the state shows of an ending that is not the budget's (R184, R185). -/
structure EndingShown (o : RunOutcome) (t : State) : Prop where
  halted : o = .halted → t.halted = true
  faulted : ∀ k ip sp, o = .faulted k ip sp →
    t.runState = .faulted ∧ t.faultRecord.kind = k ∧ t.faultRecord.faultIp = ip ∧ t.faultRecord.faultSp = sp

/-- A STEP reports `Halted` in a halted state alone. -/
theorem halted_of_stepAction (h : stepAction s = (.halted, t)) : t.halted = true := by
  cases hrun : s.runState with
  | faulted => rw [(step_of_faulted hrun).2] at h; cases h
  | running =>
    rcases halted_or_fetches hrun with hhalt | hs
    · rw [(step_of_halted hrun hhalt).2] at h
      cases h
      exact hhalt
    · rcases stepAction_cases hs with ⟨i, u, _, haction, _⟩ | ⟨k, u, _, haction, _⟩
      · rw [haction] at h
        cases h
      · rw [haction, raiseOutcome] at h
        split at h
        · cases h
        · cases h

/-- A STEP that reports `Faulted` leaves the core Faulted with the reported values in the record. -/
theorem faulted_of_stepAction (h : stepAction s = (.faulted k ip sp, t)) :
    t.runState = .faulted ∧ t.faultRecord.kind = k ∧ t.faultRecord.faultIp = ip ∧ t.faultRecord.faultSp = sp := by
  cases hrun : s.runState with
  | faulted =>
    rw [(step_of_faulted hrun).2] at h
    cases h
    exact ⟨hrun, rfl, rfl, rfl⟩
  | running =>
    rcases halted_or_fetches hrun with hhalt | hs
    · rw [(step_of_halted hrun hhalt).2] at h
      cases h
    · rcases stepAction_cases hs with ⟨i, u, _, haction, _⟩ | ⟨k, u, _, haction, _⟩
      · rw [haction] at h
        cases h
      · rw [haction] at h
        by_cases hvec : u.ivec = 0
        · rw [raiseOutcome_of_ivec_eq_zero k hvec] at h
          cases h
          exact ⟨if_pos hvec, rfl, rfl, rfl⟩
        · rw [raiseOutcome_of_ivec_ne_zero k hvec] at h
          cases h

/-- A run with a budget left either ends at its first step, with an ending the state shows, whatever the budget, or goes
on from one later state, whatever the budget. -/
theorem runAction_succ_cases {o : RunOutcome} (h : runAction (n + 1) s = (o, t)) :
    (o ≠ .budgetExhausted ∧ EndingShown o t ∧ ∀ j, runAction (j + 1) s = (o, t)) ∨
    ∃ u, runAction n u = (o, t) ∧ ∀ j, runAction (j + 1) s = runAction j u := by
  rcases hst : stepAction s with ⟨so, u⟩
  cases so with
  | halted =>
    rw [runAction_of_halted n hst] at h
    cases h
    exact Or.inl ⟨nofun, ⟨fun _ => halted_of_stepAction hst, nofun⟩, fun j => runAction_of_halted j hst⟩
  | faulted k ip sp =>
    rw [runAction_of_faulted n hst] at h
    cases h
    refine Or.inl ⟨nofun, ⟨nofun, fun k' ip' sp' ho => ?_⟩, fun j => runAction_of_faulted j hst⟩
    cases ho
    exact faulted_of_stepAction hst
  | executed =>
    rw [runAction_of_executed n hst] at h
    exact Or.inr ⟨u, h, fun j => runAction_of_executed j hst⟩
  | hooked k ip sp =>
    rw [runAction_of_hooked n hst] at h
    exact Or.inr ⟨u, h, fun j => runAction_of_hooked j hst⟩

/-- Budgets in a row add up, and the reported ending is the one the state shows: by induction on the first budget. -/
theorem runAction_add {m : Nat} {o : RunOutcome} (h : runAction m s = (o, t)) :
    (o = .budgetExhausted → runAction (m + n) s = runAction n t) ∧
    (o ≠ .budgetExhausted → runAction (m + n) s = (o, t)) ∧ EndingShown o t := by
  induction m generalizing s with
  | zero =>
    cases h
    exact ⟨fun _ => by rw [Nat.zero_add], fun hne => absurd rfl hne, nofun, nofun⟩
  | succ m ih =>
    rw [Nat.add_right_comm]
    rcases runAction_succ_cases m h with ⟨hne, hshown, hend⟩ | ⟨u, hu, hgoes⟩
    · exact ⟨fun he => absurd he hne, fun _ => hend (m + n), hshown⟩
    · rw [hgoes (m + n)]
      exact ih hu

end Run

/-- Settles O53. The four answers of STEP decide the first budget step, and an induction on the first of two budgets
carries the rest (R185, R188). -/
theorem runBudgetsAddUp : Obligations.RunBudgetsAddUp := by
  refine ⟨fun n s t => ?_, fun m n s t o h => ?_⟩
  · exact ⟨rfl, runAction_of_halted n, fun _ _ _ => runAction_of_faulted n, runAction_of_executed n,
      fun _ _ _ => runAction_of_hooked n⟩
  · obtain ⟨hgoes, hstays, hshown⟩ := runAction_add n h
    exact ⟨hgoes, hstays, hshown.halted, hshown.faulted⟩

/-! ### Steps in a row -/

/-- Settles O46, by induction on the number of steps: each answers the state itself (R193). -/
theorem haltedCoreStaysAsItIs : Obligations.HaltedCoreStaysAsItIs := by
  intro n s hrun hhalt
  obtain ⟨hstep, haction⟩ := step_of_halted hrun hhalt
  induction n with
  | zero => exact ⟨run_zero s, fun h => absurd h (by decide)⟩
  | succ n ih => exact ⟨(run_succ n hstep).trans ih.1, fun _ => runAction_of_halted n haction⟩

/-- Settles O38, by induction on the number of steps: the state after one hooked fetch fault meets the hypotheses again,
with the same `ip`, `sp`, `flags`, registers and memory and one step more counted (R159). -/
theorem vectoredFetchFaultRepeats : Obligations.VectoredFetchFaultRepeats := by
  intro s n hs hvec hr
  induction n generalizing s with
  | zero =>
    exact ⟨s, run_zero s, rfl, hs.1, (BitVec.add_zero _).symm, rfl, rfl, rfl, rfl, fun h => absurd h (by decide)⟩
  | succ n ih =>
    have hstep := step_of_not_inRange hs hr
    have hnext := raiseFault_of_ivec_ne_zero (s := beginStep s) .memoryAccessOutOfRange hvec
    have hfetches : Fetches (raiseFault .memoryAccessOutOfRange (beginStep s)) := by
      rw [hnext]
      exact hs
    obtain ⟨t, hrun, hip, hstate, hcycles, hregs, hmem, hsp, hflags, hrecord⟩ := ih _ hfetches hvec hr
    refine ⟨t, (run_succ n hstep).trans hrun, hip, hstate, ?_, hregs, hmem, hsp, hflags, fun _ => ?_⟩
    · rw [hcycles, raiseFault_cycles, beginStep_cycles, BitVec.add_assoc, Nat.add_comm, BitVec.ofNat_add]
      rfl
    · cases n with
      | zero => cases hrun; rfl
      | succ n => exact hrecord (by omega)

end Sys2Proof.Machine
end

section
/-! Proofs of the statements about two instructions in a row (44_stack.md, 45_call_return.md). -/

namespace Sys2Proof.Machine

open Sys2Proof

/-- In a state with the `sp` and the memory a push left, the slot below `sp` is the pushed one, in range, and holds the
pushed value. -/
theorem popSlot_after_push {s t : State} {v : Word} (hr : InRange s s.sp 8) (hsp : t.sp = s.sp + 8)
    (hmem : t.mem = (pushWord s v).mem) (hcfg : t.cfg = s.cfg) :
    t.sp - 8 = s.sp ∧ InRange t (t.sp - 8) 8 ∧ readMem t (t.sp - 8) .w8 = v := by
  have hslot : t.sp - 8 = s.sp := by rw [hsp, BitVec.add_sub_cancel]
  refine ⟨hslot, ?_, ?_⟩
  · rw [InRange, hslot, hcfg]
    exact hr
  · rw [readMem, hslot, hmem, ← readMem, readMem_pushWord]

/-- Settles O55. `pop` finds the pushed slot below `sp`, in range and with the pushed value (R126, S3). -/
theorem pushThenPopRestores : Obligations.PushThenPopRestores := by
  intro s t src a w i ha hr hw h
  rw [exec_of_effect_ok (effect_push_of_located ha hr)] at h
  cases h
  obtain ⟨hslot, hin, hread⟩ := popSlot_after_push hr (pushWord_sp s (readLoc s a)) rfl rfl
  refine ⟨_, exec_of_effect_ok (effect_pop_of_located hin (locate_reg .write hw)), ?_, ?_, rfl⟩
  · rw [hread]
    rfl
  · rw [writeLoc_sp, writeSp_sp, hslot]

/-- Settles O56. `ret` finds the pushed slot below `sp`, in range and with the address of the record after the call,
whatever `ip` is by then (R135, R136, S4). -/
theorem callThenReturnResumes : Obligations.CallThenReturnResumes := by
  intro s t dst a elsewhere hr ha h
  rw [exec_of_effect_ok (effect_call_of_located hr ha)] at h
  have ht : t = (pushWord s s.ip).writeReg .ip (readLoc (pushWord s s.ip) a) := by
    injection h with h
    exact h.symm
  have hregs : t.regs = s.regs := by rw [ht, writeIp_regs, pushWord_regs]
  have hsp : t.sp = s.sp + 8 := by rw [ht, writeIp_sp, pushWord_sp]
  have hmem : t.mem = (pushWord s s.ip).mem := by rw [ht, writeIp_mem]
  have hcfg : t.cfg = s.cfg := by rw [ht, writeIp_cfg, pushWord_cfg]
  obtain ⟨hslot, hin, hread⟩ := popSlot_after_push (t := { t with ip := elsewhere }) hr hsp hmem hcfg
  exact ⟨_, exec_of_effect_ok (effect_ret_of_inRange hin), hread, hslot, by rw [writeIp_regs, writeSp_regs, hregs],
    by rw [writeIp_mem, writeSp_mem]⟩

end Sys2Proof.Machine
end
